-- ==== Sys2Proof/Word.lean ====
section
/-!
DEFINITION. The words of the block: the 32-bit host request word (spec/30_encoding.md R65), the byte
that the Pixel Buffer and the bus carry (spec/20_memory.md R46), and the level of a control line
(spec/00_scope.md R11).
-/

namespace Sys2Proof

/-- One host request word, bits 31 to 0 (R65). -/
abbrev Word := BitVec 32

/-- One byte of the Pixel Buffer or of the bus; no wider value is stored or sent (R46). -/
abbrev Byte := BitVec 8

/-- The level of a control line (R11). On the data/command line `low` selects command bytes and
`high` display data bytes (R16, R85). -/
inductive Level where
  | low
  | high
deriving DecidableEq, Repr

end Sys2Proof
end

