-- ==== Sys2Proof/Config.lean ====
section
/-!
DEFINITION. The named parameters of the block (spec/00_scope.md R8). "A model takes each as an
argument": they are one record, carried by the state and never written, so that every statement about
every state is a statement about every value of every parameter. The values the spec uses as defaults
stand in Sys2Proof/Machine/Params.lean.
-/

namespace Sys2Proof

/-- The opcode constants of the Command Encoder, "a single immutable lookup structure"
(spec/40_command_encoder.md R86): parameter `CMD` of R8. One field per constant of R86, in its order. -/
structure OpcodeTable where
  colLsb : Byte
  colMsb : Byte
  regRatio : Byte
  power : Byte
  startLine : Byte
  setEv : Byte
  segNormal : Byte
  segReverse : Byte
  bias19 : Byte
  bias17 : Byte
  allpxNormal : Byte
  allpxOn : Byte
  dispNormal : Byte
  dispInverse : Byte
  displayOff : Byte
  displayOn : Byte
  page : Byte
  comNormal : Byte
  comReverse : Byte
  swReset : Byte
  setBooster : Byte
  powerVb : Byte
  powerVr : Byte
  powerVf : Byte
deriving DecidableEq, Repr

/-- The parameters of R8. `bufInit` is `BUF_INIT` in the canonical form of the Pixel Buffer's memory
(Sys2Proof/Machine/State.lean, `Memory`). -/
structure Params where
  /-- `COL_OFFSET_180`, legal values 1 to 255. -/
  colOffset180 : Nat
  /-- `RESET_LOW_US`, at least 5. -/
  resetLowUs : Nat
  /-- `RESET_HIGH_US`, at least 5. -/
  resetHighUs : Nat
  /-- `BOOSTER_SEQ`, any fixed byte list. -/
  boosterSeq : List Byte
  /-- `BIAS_CMD`, 0xA2 or 0xA3. -/
  biasCmd : Byte
  /-- `SEG_CMD(0)`. -/
  segCmd0 : Byte
  /-- `SEG_CMD(180)`. -/
  segCmd180 : Byte
  /-- `COM_CMD(0)`. -/
  comCmd0 : Byte
  /-- `COM_CMD(180)`. -/
  comCmd180 : Byte
  /-- `CMD`. -/
  cmd : OpcodeTable
  /-- `BUF_INIT`, any byte array of length `BUF_LEN`. -/
  bufInit : List Host.Cell
deriving DecidableEq, Repr

end Sys2Proof
end

