-- ==== Sys2Proof/Machine/Params.lean ====
section
/-!
DEFINITION. The values of the block's parameters: the fixed ones (spec/00_scope.md R7), the default of
each named one (R8), and the defaults of the opcode constants (spec/40_command_encoder.md R86).
-/

namespace Sys2Proof.Machine

/-- `W`, columns (R7). -/
def dispW : Nat := 128

/-- `H`, pixel rows (R7). -/
def dispH : Nat := 64

/-- `PAGES` (R7). -/
def pages : Nat := 8

/-- `BUF_LEN = W × H / 8` (R7). -/
def bufLen : Nat := dispW * dispH / 8

/-- The default of `CMD` (R86). PRESUMED: the spec takes the values from general knowledge
(spec/93_implementation_defined.md G3); log entry 11. -/
def defaultOpcodes : OpcodeTable where
  colLsb := 0x00
  colMsb := 0x10
  regRatio := 0x20
  power := 0x28
  startLine := 0x40
  setEv := 0x81
  segNormal := 0xA0
  segReverse := 0xA1
  bias19 := 0xA2
  bias17 := 0xA3
  allpxNormal := 0xA4
  allpxOn := 0xA5
  dispNormal := 0xA6
  dispInverse := 0xA7
  displayOff := 0xAE
  displayOn := 0xAF
  page := 0xB0
  comNormal := 0xC0
  comReverse := 0xC8
  swReset := 0xE2
  setBooster := 0xF8
  powerVb := 0x04
  powerVr := 0x02
  powerVf := 0x01

/-- The defaults of R8, "the value this spec uses in every example and test vector". -/
def defaultParams : Params where
  colOffset180 := 4
  resetLowUs := 5
  resetHighUs := 5
  boosterSeq := [0xF8, 0x00]
  biasCmd := 0xA2
  segCmd0 := 0xA0
  segCmd180 := 0xA1
  comCmd0 := 0xC0
  comCmd180 := 0xC8
  cmd := defaultOpcodes
  bufInit := []

end Sys2Proof.Machine
end

