-- ==== Sys2Proof/Syntax.lean ====
section
/-!
DEFINITION. The instructions, one constructor per row of spec/opcode_table.json. The block's
"instruction set" has two layers (spec/00_scope.md R3): the host operations, each one request word
(spec/30_encoding.md R65 to R70), and the bytes the block sends to the controller
(spec/30_encoding.md R73 to R76). Numeric operands are natural numbers, as R69 gives the abstract
operations; Sys2Proof/WellFormed.lean says which of them a word or a byte can carry.
-/

namespace Sys2Proof

/-- One constructor per row of spec/opcode_table.json. -/
inductive Instr where
  -- host operations (R68)
  /-- CONSTRUCT (R123): straps, rotation in degrees, inverted, contrast, regulation ratio. -/
  | construct (hcs hrst : Bool) (rot : Nat) (inv : Bool) (con rat : Nat)
  /-- RESET (R124). -/
  | reset
  /-- INITIALIZE (R125): rotation in degrees, inverted, contrast, regulation ratio. -/
  | initialise (rot : Nat) (inv : Bool) (con rat : Nat)
  /-- PRESENT (R112). -/
  | present
  /-- SETCONTRAST (R140). -/
  | setContrast (v : Nat)
  /-- SETINVERTED (R141). -/
  | setInverted (b : Bool)
  /-- SETROTATION (R142): rotation in degrees. -/
  | setRotation (rot : Nat)
  /-- SETSLEEPING (R126): true = sleep. -/
  | setSleeping (b : Bool)
  /-- SETPIXEL (R151): column, row, colour (any non-zero colour sets the bit). -/
  | setPixel (x y c : Nat)
  /-- GETPIXEL (R152): column, row. -/
  | getPixel (x y : Nat)
  /-- FILL (R153): colour (any non-zero colour fills with 0xFF). -/
  | fill (c : Nat)
  /-- BUFWRITE (R154): index, byte. -/
  | bufWrite (i : Nat) (v : Byte)
  /-- BUFREAD (R155): index. -/
  | bufRead (i : Nat)
  /-- RESERVED_D (R70): a word with OP 0xD and its other 28 bits. -/
  | reservedD (bits : Nat)
  /-- RESERVED_EF (R70): a word with OP 0xE or 0xF and its other 29 bits. -/
  | reservedEF (bits : Nat)
  -- controller command bytes (R73)
  /-- COLLSB: column[3:0]. -/
  | collsb (n : Nat)
  /-- COLMSB: column[7:4]. -/
  | colmsb (n : Nat)
  /-- REGRATIO. -/
  | regratio (r : Nat)
  /-- POWERCTRL: booster, regulator, follower. -/
  | powerctrl (vb vr vf : Bool)
  /-- STARTLINE. -/
  | startline (l : Nat)
  /-- SETEV: 0x81, then the operand byte. -/
  | setev (e : Nat)
  /-- SEGDIR: true = reverse. -/
  | segdir (reverse : Bool)
  /-- BIAS: true = bias 1/7. -/
  | bias (oneSeventh : Bool)
  /-- ALLPIX: true = all pixels on. -/
  | allpix (on : Bool)
  /-- INVERSE: true = inverse. -/
  | inverse (inv : Bool)
  /-- DISPONOFF: true = display on. -/
  | disponoff (on : Bool)
  /-- PAGEADDR. -/
  | pageaddr (p : Nat)
  /-- COMDIR: true = reverse; its bits [2:0] are sent as 0 and ignored by the row's mask (R73, R74). -/
  | comdir (reverse : Bool)
  /-- SWRESET. -/
  | swreset
  /-- SETBOOSTER: 0xF8, then the operand byte 0000000r. -/
  | setbooster (level : Bool)
  -- display data (R76)
  /-- DATA: one byte sent with DC = High. -/
  | data (d : Byte)
deriving DecidableEq, Repr

end Sys2Proof
end

