-- ==== Sys2Proof/Machine/State.lean ====
section
/-!
DEFINITION. The state of the block as plain data: every register of spec/10_state.md R21, the Pixel
Buffer, the sequencer's position, and the block's surroundings as data (the host's requests still to
come, the collaborators' failures still to come, the events emitted so far); the reasons a step can
stop; and the state right after the power-on reset.
-/

namespace Sys2Proof.Machine

/-- `LIFE`, DeviceLifecycleState (spec/10_state.md R23). -/
inductive Life where
  | unreset
  | resetting
  | initialized
  | sleeping
deriving DecidableEq, Repr

/-- `ROT`, DeviceConfig.rotation (R24): "No other value can be stored". -/
inductive Rotation where
  | deg0
  | deg180
deriving DecidableEq, Repr

/-- `STATUS` (spec/30_encoding.md R72). Codes 5 to 7 "are never produced", so they are no values. -/
inductive Status where
  | ok
  | configError
  | lifecycleError
  | transportError
  | illegal
deriving DecidableEq, Repr

/-- The control lines (spec/00_scope.md R11). -/
inductive Line where
  | cs
  | dc
  | rst
deriving DecidableEq, Repr

/-- The three kinds of event of a trace (R11). -/
inductive Event where
  | setLine (l : Line) (v : Level)
  | write (bs : List Byte)
  | delay (us : Nat)
deriving DecidableEq, Repr

/-- A write of a lifecycle or DeviceConfig register inside an operation's pseudocode. -/
inductive RegWrite where
  | life (l : Life)
  | rot (r : Rotation)
  | inv (b : Bool)
  | ev (v : BitVec 6)
  | rr (v : BitVec 3)
deriving DecidableEq, Repr

/-- One entry of an operation's list, in the order of its pseudocode (spec/00_scope.md R14): an event
to emit or a register to write. -/
inductive Action where
  | emit (e : Event)
  | write (w : RegWrite)
deriving DecidableEq, Repr

/-- `SEQ` (spec/10_state.md R30): Idle, or Busy with what is still to be done, the front first. R30
names the remaining events; the register writes that the operation's rule places among and after them
stand at their places (log entry 7). `building` says that the running operation is construct, whose
failure leaves no block (spec/60_exceptions.md R169). -/
inductive Seq where
  | idle
  | busy (rest : List Action) (building : Bool)
deriving DecidableEq, Repr

/-- One failure that a collaborator is going to make (spec/60_exceptions.md R168, "a free input"): after
`after` further `SetLine` and `Write` events have been accepted, the next one fails; if it is a
`SetLine`, its line is left at `level`, which is free too (R169). -/
structure Failure where
  after : Nat
  level : Level
deriving DecidableEq, Repr

/-- The Pixel Buffer as (index, byte) pairs: indexes strictly rising, and no pair equal to what an
unlisted index reads as (Sys2Proof/Machine/Ops.lean, `Memory.wf`). -/
abbrev Memory := List Host.Cell

/-- The state. Registers are those of spec/10_state.md R21, in its order; COLOFF is derived (R29) and
stands in Sys2Proof/Machine/Operands.lean. -/
structure State where
  /-- The parameters of R8, never written. -/
  params : Params
  /-- A block exists: a construct has ended OK, or is running (R35, R123, R169). While it is false no
  register but the response registers holds a value, and none is read. -/
  constructed : Bool
  /-- `HAS_CS` (R22). -/
  hasCs : Bool
  /-- `HAS_RST` (R22). -/
  hasRst : Bool
  /-- `LIFE` (R23). -/
  life : Life
  /-- `ROT` (R24). -/
  rot : Rotation
  /-- `INV` (R25). -/
  inv : Bool
  /-- `EV` (R26). -/
  ev : BitVec 6
  /-- `RR` (R27). -/
  rr : BitVec 3
  /-- `CS_LVL` (R30); no register of the block while `hasCs` is false (R22). -/
  csLvl : Level
  /-- `DC_LVL` (R30). -/
  dcLvl : Level
  /-- `RST_LVL` (R30); no register of the block while `hasRst` is false (R22). -/
  rstLvl : Level
  /-- `BUF` (R32). -/
  buf : Memory
  /-- `SEQ` (R30). -/
  seq : Seq
  /-- `STATUS` (R31). -/
  status : Status
  /-- `RDATA` (R31). -/
  rdata : Byte
  /-- The request words the host is going to hand over, the next one first (spec/60_exceptions.md
  R174). The model's own field: an input. -/
  requests : List Word
  /-- The failures the collaborators are going to make (R168). The model's own field: a free input. -/
  failures : List Failure
  /-- The events emitted so far, the oldest first (spec/00_scope.md R11). The model's own field: the
  output. -/
  trace : List Event
deriving DecidableEq, Repr

/-- Why the machine stops with a fault. -/
inductive Fault where
  /-- A register is read while no block exists: "A model must treat a read of any register before
  construct as a fault, not as zero" (spec/10_state.md R35; spec/93_implementation_defined.md U1, U27).
  Raised by every meaning but construct's and the reserved words'. Safe. -/
  | noBlock
deriving DecidableEq, Repr

/-- Why the machine has no meaning to give. -/
inductive Refusal where
  /-- An instruction whose arm of `exec` has no meaning yet. Raised by `exec` only. Safe. -/
  | notModelled (mnemonic : String)
  /-- A host request run while the sequencer is Busy: "the host has no such move"
  (spec/93_implementation_defined.md U4; spec/60_exceptions.md R174). Raised by the meanings of the host
  operations and the reserved words; `step` never asks for it. Safe. -/
  | busy
  /-- A legal request other than construct while no block exists: "the host has no such move" (U5;
  R174). Raised by `step`. Safe. -/
  | beforeConstruct
deriving DecidableEq, Repr

/-- The state right after the power-on reset. "The block's power-on reset is construct"
(spec/70_reset_and_hazards.md R190): the registers hold the values of spec/10_state.md R35, with
construct's operands at their defaults (R7, spec/30_encoding.md R79) and the parameters at theirs (R8).
No request is waiting, no failure is to come, and the trace begins here (log entries 1, 4, 5, 6). -/
def State.reset : State where
  params := defaultParams
  constructed := true
  hasCs := true
  hasRst := true
  life := .initialized
  rot := .deg0
  inv := false
  ev := 0x1F
  rr := 0x03
  csLvl := .high
  dcLvl := .low
  rstLvl := .high
  buf := []
  seq := .idle
  status := .ok
  rdata := 0x00
  requests := []
  failures := []
  trace := []

/-- The state with power applied and no block yet ("Before construct no register holds a value",
R190). The fields that hold no register's value are filled as in `State.reset`; nothing reads them. -/
def State.powerOn : State := { State.reset with constructed := false, life := .unreset }

end Sys2Proof.Machine
end

