-- ==== Sys2Proof/Machine/Operands.lean ====
section
/-!
DEFINITION. Operands: the masks of spec/40_command_encoder.md R88, the rotation operand
(spec/30_encoding.md R67), the register encodings of spec/10_state.md, the derived column offset (R29),
the lifecycle check (spec/42_lifecycle.md R121), and the places of a pixel (spec/20_memory.md R45).
-/

namespace Sys2Proof.Machine

/-- `maskContrast(v) = trunc_6(v)` (R88). -/
def maskContrast (v : Nat) : BitVec 6 := BitVec.ofNat 6 v

/-- `maskRatio(r) = trunc_3(r)` (R88). -/
def maskRatio (r : Nat) : BitVec 3 := BitVec.ofNat 3 r

/-- `maskPage(p) = trunc_4(p)` (R88). -/
def maskPage (p : Nat) : BitVec 4 := BitVec.ofNat 4 p

/-- `maskColumn(c) = trunc_8(c)` (R88). -/
def maskColumn (c : Nat) : BitVec 8 := BitVec.ofNat 8 c

/-- `maskLine(l) = trunc_6(l)` (R88). -/
def maskLine (l : Nat) : BitVec 6 := BitVec.ofNat 6 l

/-- The rotation operand: "Only 0 and 180 are legal" (R67); enumerated operands are never masked
(R88). -/
def legalRotation (degrees : Nat) : Option Rotation :=
  if degrees = 0 then some .deg0 else if degrees = 180 then some .deg180 else none

/-- The 1-bit encoding of `ROT` (R24). -/
def rotCode : Rotation → BitVec 1
  | .deg0 => 0
  | .deg180 => 1

/-- The 2-bit encoding of `LIFE` (R23). -/
def lifeCode : Life → BitVec 2
  | .unreset => 0
  | .resetting => 1
  | .initialized => 2
  | .sleeping => 3

/-- `COLOFF` for a value of `ROT` (R29): derived and read-only. -/
def colOffset (p : Params) : Rotation → BitVec 8
  | .deg0 => 0
  | .deg180 => BitVec.ofNat 8 p.colOffset180

/-- `COLOFF` (R29), "a function of rotation". -/
def colOff (s : State) : BitVec 8 := colOffset s.params s.rot

/-- `LIFE ∈ {Initialized, Sleeping}`: the states in which the runtime operations, present and
setSleeping are valid (R121). -/
def runtime : Life → Bool
  | .unreset => false
  | .resetting => false
  | .initialized => true
  | .sleeping => true

/-- `page(y) = y >> 3` (R45). -/
def pageOf (y : Nat) : Nat := y / 8

/-- `index(x, y) = page(y) * W + x` (R45). -/
def pixelIndex (x y : Nat) : Nat := pageOf y * dispW + x

/-- `bit(y) = y & 7` (R45): row `8p + k` is bit `k`. -/
def pixelBit (y : Nat) : Nat := y % 8

/-- The pixel is on the display: `x < W and y < H`. -/
def onDisplay (x y : Nat) : Bool := decide (x < dispW) && decide (y < dispH)

/-- `(old & ~(1 << k)) | (b << k)` at 8 bits (spec/44_pixel_buffer.md R151). -/
def setBit (old : Byte) (k : Nat) (b : Bool) : Byte :=
  (old &&& ~~~(1#8 <<< k)) ||| (if b then 1#8 <<< k else 0)

/-- `(v >> k) & 1` (R152). -/
def getBit (v : Byte) (k : Nat) : Byte := (v >>> k) &&& 1

end Sys2Proof.Machine
end

