-- ==== Sys2Proof/Machine/Flags.lean ====
section
/-!
DEFINITION. The block's only flags, the response registers `STATUS` and `RDATA`
(spec/10_state.md R31; spec/30_encoding.md R71, R72): their codes, the response word, and the end of an
operation. "The block has no condition codes, carry, zero or overflow flags".
-/

namespace Sys2Proof.Machine

/-- The 3-bit code of `STATUS` (R72). -/
def statusCode : Status → BitVec 3
  | .ok => 0
  | .configError => 1
  | .lifecycleError => 2
  | .transportError => 3
  | .illegal => 4

/-- The 16-bit response word (R71): bits [15:11] are 0, [10:8] are `STATUS`, [7:0] are `RDATA`. -/
def responseWord (s : State) : BitVec 16 := (0#5 ++ statusCode s.status) ++ s.rdata

/-- `respond(status, data)` (spec/00_scope.md R14): the response registers are written and the
sequencer returns to Idle (spec/10_state.md R30). -/
def respond (st : Status) (d : Byte) (s : State) : State :=
  { s with status := st, rdata := d, seq := .idle }

end Sys2Proof.Machine
end

