-- ==== Sys2Proof/Machine/Ops.lean ====
section
/-!
DEFINITION. The named operations: the Pixel Buffer's reads and writes (spec/20_memory.md), the emission
of events to the collaborators that may fail (spec/60_exceptions.md R168, R169), the error entry every
instruction shares (R170, R173), and an operation's run from its list of actions (spec/10_state.md
R30).
-/

namespace Sys2Proof.Machine

-- The Pixel Buffer

/-- What an unlisted index reads as: the default of `BUF_INIT`, "all bytes 0x00" (spec/00_scope.md R8;
log entry 3). -/
def unlistedByte : Byte := 0x00

/-- `BufRead(i)` (R14). -/
def Memory.read : Memory → Nat → Byte
  | [], _ => unlistedByte
  | (a, v) :: rest, i => if a = i then v else Memory.read rest i

/-- A cell in front of a list of later cells, left out if it equals what an unlisted index reads as. -/
def Memory.cons (i : Nat) (v : Byte) (rest : Memory) : Memory :=
  if v = unlistedByte then rest else (i, v) :: rest

/-- `BufWrite(i, v)` (R14), which keeps the canonical form. -/
def Memory.write : Memory → Nat → Byte → Memory
  | [], i, v => Memory.cons i v []
  | (a, w) :: rest, i, v =>
    if i < a then Memory.cons i v ((a, w) :: rest)
    else if i = a then Memory.cons i v rest
    else (a, w) :: Memory.write rest i v

/-- The canonical form from index `lo` on: strictly rising indexes below `BUF_LEN` (spec/20_memory.md
R50), no byte equal to what an unlisted index reads as. -/
def Memory.wfFrom (lo : Nat) : Memory → Bool
  | [] => true
  | (a, v) :: rest =>
    decide (lo ≤ a) && decide (a < bufLen) && decide (v ≠ unlistedByte) && Memory.wfFrom (a + 1) rest

/-- The canonical form of the Pixel Buffer. -/
def Memory.wf (m : Memory) : Bool := Memory.wfFrom 0 m

/-- Every byte of the buffer the same (spec/44_pixel_buffer.md R153), in canonical form. -/
def filled (v : Byte) : Memory :=
  if v = unlistedByte then [] else (List.range bufLen).map fun i => (i, v)

-- Events and the collaborators

/-- The next `SetLine` or `Write`: `none` if the collaborator accepts it, and `some level` if it
fails (R168), with the failures still to come after it. -/
def draw : List Failure → Option Level × List Failure
  | [] => (none, [])
  | f :: rest =>
    match f.after with
    | 0 => (some f.level, rest)
    | n + 1 => (none, { f with after := n } :: rest)

/-- The level registers follow a `SetLine` (spec/10_state.md R30). -/
def setLevel (l : Line) (v : Level) (s : State) : State :=
  match l with
  | .cs => { s with csLvl := v }
  | .dc => { s with dcLvl := v }
  | .rst => { s with rstLvl := v }

/-- The event is the trace's last (spec/00_scope.md R11), and the collaborator's draw is taken. -/
def record (e : Event) (fs : List Failure) (s : State) : State :=
  { s with trace := s.trace ++ [e], failures := fs }

/-- What became of an emission: accepted, or failed. -/
inductive Sent where
  | accepted (s : State)
  | failed (s : State)
deriving DecidableEq, Repr

/-- `emit e` (R14): `SetLine` and `Write` may fail, a `Delay` never does (R168); the failing event is
the trace's last; the line of a failed `SetLine` holds a free level (R169). -/
def emit (e : Event) (s : State) : Sent :=
  match e with
  | .delay _ => .accepted (record e s.failures s)
  | .setLine l v =>
    match draw s.failures with
    | (none, fs) => .accepted (setLevel l v (record e fs s))
    | (some lvl, fs) => .failed (setLevel l lvl (record e fs s))
  | .write _ =>
    match draw s.failures with
    | (none, fs) => .accepted (record e fs s)
    | (some _, fs) => .failed (record e fs s)

/-- `REG <- v` (R14) for `LIFE` and the DeviceConfig registers. -/
def writeReg (w : RegWrite) (s : State) : State :=
  match w with
  | .life l => { s with life := l }
  | .rot r => { s with rot := r }
  | .inv b => { s with inv := b }
  | .ev v => { s with ev := v }
  | .rr v => { s with rr := v }

/-- One entry of an operation's list. -/
def perform (a : Action) (s : State) : Sent :=
  match a with
  | .emit e => emit e s
  | .write w => .accepted (writeReg w s)

/-- A list of actions "front to back, one event at a time, with no branches" (spec/10_state.md R30), up
to the first emission that fails. -/
def performAll : List Action → State → Sent
  | [], s => .accepted s
  | a :: rest, s =>
    match perform a s with
    | .accepted t => performAll rest t
    | .failed t => .failed t

-- Errors

/-- `raise E` (spec/60_exceptions.md R170): the one error entry of the block. `STATUS <- E`,
`RDATA <- 0`, `SEQ <- Idle`; "no state is saved, no handler runs" and there is no return (R173): the
block is Idle and takes the next request. -/
def raiseError (e : Status) (s : State) : State := respond e 0x00 s

/-- The end of an operation whose emission failed (R168, R169): TRANSPORT_ERROR; and a construct that
fails "leaves no constructed block". -/
def transportFailure (building : Bool) (s : State) : State :=
  { raiseError .transportError s with constructed := s.constructed && !building }

-- Operations

/-- The end of an operation that emits: OK with no data, or TRANSPORT_ERROR. -/
def conclude (building : Bool) : Sent → State
  | .accepted s => respond .ok 0x00 s
  | .failed s => transportFailure building s

/-- An operation from its whole list of actions to its response. -/
def runOp (building : Bool) (acts : List Action) (s : State) : State :=
  conclude building (performAll acts s)

/-- A host request is taken only while `SEQ = Idle` (spec/60_exceptions.md R174). -/
def onPort (s t : State) : Host.Outcome State Fault Refusal :=
  match s.seq with
  | .idle => .next t
  | .busy _ _ => .refused .busy

/-- A host operation other than construct: it reads registers, which hold values only in a block
(spec/10_state.md R35). -/
def onBlock (s t : State) : Host.Outcome State Fault Refusal :=
  match s.seq with
  | .idle => if s.constructed then .next t else .fault .noBlock
  | .busy _ _ => .refused .busy

/-- Actions of the running operation that are not its end: a failure among them ends it. -/
def runPart (acts : List Action) (s : State) : State :=
  match performAll acts s with
  | .accepted t => t
  | .failed t =>
    match s.seq with
    | .idle => transportFailure false t
    | .busy _ building => transportFailure building t

/-- An instruction of the controller layer: the sequencer sends its bytes, whatever it is doing. It
reads `HAS_CS`, so a block must exist (R35). -/
def onWire (acts : List Action) (s : State) : Host.Outcome State Fault Refusal :=
  if s.constructed then .next (runPart acts s) else .fault .noBlock

end Sys2Proof.Machine
end

