-- ==== Sys2Proof/Machine/Encoder.lean ====
section
/-!
DEFINITION. The Command Encoder (spec/40_command_encoder.md): one pure, total function per command kind,
reading only its operands and the parameters (R87), and the frame that carries each byte (R85, R103).
-/

namespace Sys2Proof.Machine

/-- A field OR'd into its base byte (spec/30_encoding.md R74): never sign-extended or scaled. -/
def orField {k : Nat} (base : Byte) (f : BitVec k) : Byte := base ||| f.setWidth 8

/-- `b * BIT` of R96: the bit if the boolean is true, else 0. -/
def ifBit (b : Bool) (v : Byte) : Byte := if b then v else 0

/-- `encReset()` (R89). -/
def encReset (p : Params) : List Byte := [p.cmd.swReset]

/-- `encPage(p)` (R90). -/
def encPage (p : Params) (page : Nat) : List Byte := [orField p.cmd.page (maskPage page)]

/-- The COLMSB byte of R91, from column[7:4]. -/
def encColMsb (p : Params) (n : BitVec 4) : List Byte := [orField p.cmd.colMsb n]

/-- The COLLSB byte of R91, from column[3:0]. -/
def encColLsb (p : Params) (n : BitVec 4) : List Byte := [orField p.cmd.colLsb n]

/-- `encColumn(c)` (R91): the MSB byte first. -/
def encColumn (p : Params) (c : Nat) : List Byte :=
  encColMsb p ((maskColumn c).extractLsb' 4 4) ++ encColLsb p ((maskColumn c).extractLsb' 0 4)

/-- `encContrast(v)` (R92): the operand byte after its opcode. -/
def encContrast (p : Params) (v : Nat) : List Byte := [p.cmd.setEv, (maskContrast v).setWidth 8]

/-- `encBooster()` (R93). -/
def encBooster (p : Params) : List Byte := p.boosterSeq

/-- `encBias()` (R94). -/
def encBias (p : Params) : List Byte := [p.biasCmd]

/-- `encRatio(r)` (R95). -/
def encRatio (p : Params) (r : Nat) : List Byte := [orField p.cmd.regRatio (maskRatio r)]

/-- `encPower(vb, vr, vf)` (R96). -/
def encPower (p : Params) (vb vr vf : Bool) : List Byte :=
  [p.cmd.power ||| ifBit vb p.cmd.powerVb ||| ifBit vr p.cmd.powerVr ||| ifBit vf p.cmd.powerVf]

/-- `encStartLine(l)` (R97). -/
def encStartLine (p : Params) (l : Nat) : List Byte := [orField p.cmd.startLine (maskLine l)]

/-- `encPolarity(inv)` (R98). -/
def encPolarity (p : Params) (inv : Bool) : List Byte :=
  [if inv then p.cmd.dispInverse else p.cmd.dispNormal]

/-- `encSegDir(rot)` (R99), on a validated rotation. -/
def encSegDir (p : Params) : Rotation → List Byte
  | .deg0 => [p.segCmd0]
  | .deg180 => [p.segCmd180]

/-- `encComDir(rot)` (R100), on a validated rotation. -/
def encComDir (p : Params) : Rotation → List Byte
  | .deg0 => [p.comCmd0]
  | .deg180 => [p.comCmd180]

/-- `encAllPixels(on)` (R101). -/
def encAllPixels (p : Params) (on : Bool) : List Byte :=
  [if on then p.cmd.allpxOn else p.cmd.allpxNormal]

/-- `encDisplay(on)` (R102). -/
def encDisplay (p : Params) (on : Bool) : List Byte :=
  [if on then p.cmd.displayOn else p.cmd.displayOff]

/-- The SEGDIR byte by its own field (spec/30_encoding.md R73), from the constants of R86. -/
def encSegField (p : Params) (reverse : Bool) : List Byte :=
  [if reverse then p.cmd.segReverse else p.cmd.segNormal]

/-- The COMDIR byte by its own field (R73, R86). -/
def encComField (p : Params) (reverse : Bool) : List Byte :=
  [if reverse then p.cmd.comReverse else p.cmd.comNormal]

/-- The BIAS byte by its own field (R73, R86). -/
def encBiasField (p : Params) (oneSeventh : Bool) : List Byte :=
  [if oneSeventh then p.cmd.bias17 else p.cmd.bias19]

/-- The SETBOOSTER bytes by their own field (R73, R86): the operand byte is 0000000r. -/
def encBoosterField (p : Params) (level : Bool) : List Byte :=
  [p.cmd.setBooster, if level then 1 else 0]

/-- `Frame(dc, bs)` (R85): DC first, then the chip-select bracket around the write; with no
chip-select line only DC and the write. -/
def frame (hasCs : Bool) (dc : Level) (bs : List Byte) : List Event :=
  if hasCs then [.setLine .dc dc, .setLine .cs .low, .write bs, .setLine .cs .high]
  else [.setLine .dc dc, .write bs]

/-- `EmitCmds(bs)` (R103): each byte in a command frame of its own, in list order. -/
def cmdFrames (hasCs : Bool) (bs : List Byte) : List Event :=
  bs.flatMap fun b => frame hasCs .low [b]

/-- Events as actions. -/
def emits (es : List Event) : List Action := es.map Action.emit

end Sys2Proof.Machine
end

