-- ==== Sys2Proof/Machine/Commands.lean ====
section
/-!
DEFINITION. The second layer of the instruction set (spec/00_scope.md R3): the bytes the block sends to
the controller (spec/30_encoding.md R73, R76). To run one is to send it: its encoder function's bytes
(spec/40_command_encoder.md), each in a command frame (R103), or one data byte in a data frame (R85).
What the byte does inside the controller is out of scope (R6). No register of the block but the line
levels is written; a failed emission ends the operation that was sending (spec/60_exceptions.md R168).
-/

namespace Sys2Proof.Machine

/-- `EmitCmds(bs)` (R103) as an instruction of the controller layer. -/
def sendCmds (bs : List Byte) (s : State) : Host.Outcome State Fault Refusal :=
  onWire (emits (cmdFrames s.hasCs bs)) s

/-- COLLSB (R91). -/
def execCollsb (n : Nat) (s : State) : Host.Outcome State Fault Refusal :=
  sendCmds (encColLsb s.params (BitVec.ofNat 4 n)) s

/-- COLMSB (R91). -/
def execColmsb (n : Nat) (s : State) : Host.Outcome State Fault Refusal :=
  sendCmds (encColMsb s.params (BitVec.ofNat 4 n)) s

/-- REGRATIO (R95). -/
def execRegratio (r : Nat) (s : State) : Host.Outcome State Fault Refusal :=
  sendCmds (encRatio s.params r) s

/-- POWERCTRL (R96). -/
def execPowerctrl (vb vr vf : Bool) (s : State) : Host.Outcome State Fault Refusal :=
  sendCmds (encPower s.params vb vr vf) s

/-- STARTLINE (R97). -/
def execStartline (l : Nat) (s : State) : Host.Outcome State Fault Refusal :=
  sendCmds (encStartLine s.params l) s

/-- SETEV (R92): two frames, prefix first. -/
def execSetev (e : Nat) (s : State) : Host.Outcome State Fault Refusal :=
  sendCmds (encContrast s.params e) s

/-- SEGDIR (R99). -/
def execSegdir (reverse : Bool) (s : State) : Host.Outcome State Fault Refusal :=
  sendCmds (encSegField s.params reverse) s

/-- BIAS (R94). -/
def execBias (oneSeventh : Bool) (s : State) : Host.Outcome State Fault Refusal :=
  sendCmds (encBiasField s.params oneSeventh) s

/-- ALLPIX (R101). -/
def execAllpix (on : Bool) (s : State) : Host.Outcome State Fault Refusal :=
  sendCmds (encAllPixels s.params on) s

/-- INVERSE (R98). -/
def execInverse (inv : Bool) (s : State) : Host.Outcome State Fault Refusal :=
  sendCmds (encPolarity s.params inv) s

/-- DISPONOFF (R102). -/
def execDisponoff (on : Bool) (s : State) : Host.Outcome State Fault Refusal :=
  sendCmds (encDisplay s.params on) s

/-- PAGEADDR (R90). -/
def execPageaddr (p : Nat) (s : State) : Host.Outcome State Fault Refusal :=
  sendCmds (encPage s.params p) s

/-- COMDIR (R100). -/
def execComdir (reverse : Bool) (s : State) : Host.Outcome State Fault Refusal :=
  sendCmds (encComField s.params reverse) s

/-- SWRESET (R89). -/
def execSwreset (s : State) : Host.Outcome State Fault Refusal :=
  sendCmds (encReset s.params) s

/-- SETBOOSTER (R93): two frames, prefix first. -/
def execSetbooster (level : Bool) (s : State) : Host.Outcome State Fault Refusal :=
  sendCmds (encBoosterField s.params level) s

/-- DATA (R76): one byte in a data frame. -/
def execData (d : Byte) (s : State) : Host.Outcome State Fault Refusal :=
  onWire (emits (frame s.hasCs .high [d])) s

/-- The bytes an instruction of the controller layer sends under given parameters, with the level of
DC; a host operation is none of them. -/
def wireBytes (p : Params) : Instr → Option (Level × List Byte)
  | .construct _ _ _ _ _ _ => none
  | .reset => none
  | .initialise _ _ _ _ => none
  | .present => none
  | .setContrast _ => none
  | .setInverted _ => none
  | .setRotation _ => none
  | .setSleeping _ => none
  | .setPixel _ _ _ => none
  | .getPixel _ _ => none
  | .fill _ => none
  | .bufWrite _ _ => none
  | .bufRead _ => none
  | .reservedD _ => none
  | .reservedEF _ => none
  | .collsb n => some (.low, encColLsb p (BitVec.ofNat 4 n))
  | .colmsb n => some (.low, encColMsb p (BitVec.ofNat 4 n))
  | .regratio r => some (.low, encRatio p r)
  | .powerctrl vb vr vf => some (.low, encPower p vb vr vf)
  | .startline l => some (.low, encStartLine p l)
  | .setev e => some (.low, encContrast p e)
  | .segdir s => some (.low, encSegField p s)
  | .bias s => some (.low, encBiasField p s)
  | .allpix s => some (.low, encAllPixels p s)
  | .inverse s => some (.low, encPolarity p s)
  | .disponoff s => some (.low, encDisplay p s)
  | .pageaddr n => some (.low, encPage p n)
  | .comdir s => some (.low, encComField p s)
  | .swreset => some (.low, encReset p)
  | .setbooster r => some (.low, encBoosterField p r)
  | .data d => some (.high, [d])

end Sys2Proof.Machine
end

