-- ==== Sys2Proof/Machine/Lifecycle.lean ====
section
/-!
DEFINITION. The Device State Machine (spec/42_lifecycle.md): construct, reset, initialize and
setSleeping.
-/

namespace Sys2Proof.Machine

/-- `InitSeq(deg, inv, ev, rr)` (R122): the 13 steps, in their mandatory order. -/
def initSeq (p : Params) (r : Rotation) (inv : Bool) (ev : BitVec 6) (rr : BitVec 3) : List Byte :=
  encBooster p ++ encBias p ++ encSegDir p r ++ encComDir p r ++ encPolarity p inv
    ++ encRatio p rr.toNat ++ encContrast p ev.toNat
    ++ encPower p true false false ++ encPower p true true false ++ encPower p true true true
    ++ encStartLine p 0 ++ encAllPixels p false ++ encDisplay p true

/-- The hardware reset pulse of `ResetBody` (R124); without a reset line there is none. -/
def resetPulse (p : Params) (hasRst : Bool) : List Event :=
  if hasRst then
    [.setLine .rst .low, .delay p.resetLowUs, .setLine .rst .high, .delay p.resetHighUs]
  else []

/-- The events of `ResetBody` (R124): the pulse, then the software reset command. -/
def resetEvents (p : Params) (hasCs hasRst : Bool) : List Event :=
  resetPulse p hasRst ++ cmdFrames hasCs (encReset p)

/-- `ResetBody()` (R124). -/
def resetBody (p : Params) (hasCs hasRst : Bool) : List Action :=
  emits (resetEvents p hasCs hasRst) ++ [.write (.life .resetting)]

/-- The events of `InitBody` (R125): the initialization sequence, one frame a byte. -/
def initEvents (p : Params) (hasCs : Bool) (r : Rotation) (inv : Bool) (con rat : Nat) : List Event :=
  cmdFrames hasCs (initSeq p r inv (maskContrast con) (maskRatio rat))

/-- The register writes at the end of `InitBody` (R125). -/
def initWrites (r : Rotation) (inv : Bool) (con rat : Nat) : List Action :=
  [.write (.rot r), .write (.inv inv), .write (.ev (maskContrast con)), .write (.rr (maskRatio rat)),
    .write (.life .initialized)]

/-- `InitBody(rot, inv, con, rat)` (R125). -/
def initBody (p : Params) (hasCs : Bool) (r : Rotation) (inv : Bool) (con rat : Nat) : List Action :=
  emits (initEvents p hasCs r inv con rat) ++ initWrites r inv con rat

/-- The idle levels "at construction" (R123): chip-select high, data/command low, reset high. -/
def idleLevels (hasCs hasRst : Bool) : List Event :=
  (if hasCs then [.setLine .cs .high] else []) ++ [.setLine .dc .low]
    ++ (if hasRst then [.setLine .rst .high] else [])

/-- What construct writes before its first event (R123). A line that has no level yet is held at its
idle level in the state (log entry 14). -/
def newBlock (hcs hrst : Bool) (r : Rotation) (inv : Bool) (con rat : Nat) (s : State) : State :=
  { s with
    constructed := true, hasCs := hcs, hasRst := hrst, buf := s.params.bufInit, life := .unreset,
    rot := r, inv := inv, ev := maskContrast con, rr := maskRatio rat,
    csLvl := .high, dcLvl := .low, rstLvl := .high }

/-- What construct does after those writes (R123): idle levels, `ResetBody`, `InitBody`. -/
def constructBody (p : Params) (hcs hrst : Bool) (r : Rotation) (inv : Bool) (con rat : Nat) :
    List Action :=
  emits (idleLevels hcs hrst) ++ resetBody p hcs hrst ++ initBody p hcs r inv con rat

/-- CONSTRUCT (R123): "There is no lifecycle check, because construct is the block's power-on". -/
def execConstruct (hcs hrst : Bool) (rot : Nat) (inv : Bool) (con rat : Nat) (s : State) :
    Host.Outcome State Fault Refusal :=
  onPort s <|
    match legalRotation rot with
    | none => raiseError .configError s
    | some r =>
      runOp true (constructBody s.params hcs hrst r inv con rat) (newBlock hcs hrst r inv con rat s)

/-- RESET (R124): "valid in every state". -/
def execReset (s : State) : Host.Outcome State Fault Refusal :=
  onBlock s (runOp false (resetBody s.params s.hasCs s.hasRst) s)

/-- INITIALIZE (R125): the rotation is checked before the lifecycle state (spec/60_exceptions.md
R171). -/
def execInitialise (rot : Nat) (inv : Bool) (con rat : Nat) (s : State) :
    Host.Outcome State Fault Refusal :=
  onBlock s <|
    match legalRotation rot with
    | none => raiseError .configError s
    | some r =>
      if s.life = .resetting then runOp false (initBody s.params s.hasCs r inv con rat) s
      else raiseError .lifecycleError s

/-- The bytes of setSleeping (R126). -/
def sleepBytes (p : Params) (b : Bool) : List Byte :=
  if b then encDisplay p false ++ encAllPixels p true else encAllPixels p false ++ encDisplay p true

/-- The lifecycle state setSleeping goes to (R126). -/
def sleepLife (b : Bool) : Life := if b then .sleeping else .initialized

/-- SETSLEEPING (R126). -/
def execSetSleeping (b : Bool) (s : State) : Host.Outcome State Fault Refusal :=
  onBlock s <|
    if runtime s.life then
      runOp false (emits (cmdFrames s.hasCs (sleepBytes s.params b)) ++ [.write (.life (sleepLife b))]) s
    else raiseError .lifecycleError s

end Sys2Proof.Machine
end

