-- ==== Sys2Proof/Machine/PixelBuffer.lean ====
section
/-!
DEFINITION. The Pixel Buffer operations (spec/44_pixel_buffer.md): valid in every lifecycle state, they
emit no event and touch no line, DeviceConfig field or `LIFE` (R150).
-/

namespace Sys2Proof.Machine

/-- The buffer with one pixel written (R151): a read-modify-write of one byte. -/
def putPixel (m : Memory) (x y c : Nat) : Memory :=
  Memory.write m (pixelIndex x y)
    (setBit (Memory.read m (pixelIndex x y)) (pixelBit y) (decide (c ≠ 0)))

/-- SETPIXEL (R151): out of range it writes nothing and still responds OK (clipping). -/
def execSetPixel (x y c : Nat) (s : State) : Host.Outcome State Fault Refusal :=
  onBlock s <|
    respond .ok 0x00 (if onDisplay x y then { s with buf := putPixel s.buf x y c } else s)

/-- GETPIXEL (R152): ILLEGAL outside the display. -/
def execGetPixel (x y : Nat) (s : State) : Host.Outcome State Fault Refusal :=
  onBlock s <|
    if onDisplay x y then respond .ok (getBit (Memory.read s.buf (pixelIndex x y)) (pixelBit y)) s
    else raiseError .illegal s

/-- FILL (R153): every byte 0xFF, or every byte 0x00. -/
def execFill (c : Nat) (s : State) : Host.Outcome State Fault Refusal :=
  onBlock s <| respond .ok 0x00 { s with buf := filled (if c ≠ 0 then 0xFF else 0x00) }

/-- BUFWRITE (R154): ILLEGAL from index `BUF_LEN` on. -/
def execBufWrite (i : Nat) (v : Byte) (s : State) : Host.Outcome State Fault Refusal :=
  onBlock s <|
    if i < bufLen then respond .ok 0x00 { s with buf := Memory.write s.buf i v }
    else raiseError .illegal s

/-- BUFREAD (R155): ILLEGAL from index `BUF_LEN` on. -/
def execBufRead (i : Nat) (s : State) : Host.Outcome State Fault Refusal :=
  onBlock s <|
    if i < bufLen then respond .ok (Memory.read s.buf i) s else raiseError .illegal s

end Sys2Proof.Machine
end

