-- ==== Sys2Proof/Machine/Present.lean ====
section
/-!
DEFINITION. The Addressing Mapper and present (spec/41_addressing_present.md; spec/20_memory.md R52).
-/

namespace Sys2Proof.Machine

/-- Page segment `p` of the buffer (R110): `BUF[p*W .. p*W + W - 1]`. -/
def pageSegment (m : Memory) (p : Nat) : List Byte :=
  (List.range dispW).map fun j => Memory.read m (p * dispW + j)

/-- The rotation mapper (spec/20_memory.md R52): buffer page `p` to the controller's page address and
start column. -/
def mapPage (off : BitVec 8) (p : Nat) : Nat × BitVec 8 := (p, off)

/-- The four command parts of `PageWrite` (R111): start line, page, column MSB and LSB. -/
def pageCommands (par : Params) (off : BitVec 8) (p : Nat) : List Byte :=
  encStartLine par 0 ++ encPage par (mapPage off p).1 ++ encColumn par (mapPage off p).2.toNat

/-- `PageWrite(p, off)` (R111): the commands, then the page's bytes as one data frame. -/
def pageWrite (par : Params) (hasCs : Bool) (off : BitVec 8) (m : Memory) (p : Nat) : List Event :=
  cmdFrames hasCs (pageCommands par off p) ++ frame hasCs .high (pageSegment m p)

/-- The events of present (R112): pages in strictly increasing order. -/
def presentEvents (par : Params) (hasCs : Bool) (off : BitVec 8) (m : Memory) : List Event :=
  (List.range pages).flatMap (pageWrite par hasCs off m)

/-- PRESENT (R112): the offset is sampled once, at the start. -/
def execPresent (s : State) : Host.Outcome State Fault Refusal :=
  onBlock s <|
    if runtime s.life then runOp false (emits (presentEvents s.params s.hasCs (colOff s) s.buf)) s
    else raiseError .lifecycleError s

end Sys2Proof.Machine
end

