-- ==== Sys2Proof/Machine/Reserved.lean ====
section
/-!
DEFINITION. The reserved operation codes (spec/30_encoding.md R70): ILLEGAL in any state
(spec/60_exceptions.md R171), with no event and no other effect.
-/

namespace Sys2Proof.Machine

/-- RESERVED_D (R70), whatever its other bits. -/
def execReservedD (_bits : Nat) (s : State) : Host.Outcome State Fault Refusal :=
  onPort s (raiseError .illegal s)

/-- RESERVED_EF (R70), whatever its other bits. -/
def execReservedEF (_bits : Nat) (s : State) : Host.Outcome State Fault Refusal :=
  onPort s (raiseError .illegal s)

end Sys2Proof.Machine
end

