-- ==== Sys2Proof/Machine/RuntimeConfig.lean ====
section
/-!
DEFINITION. The runtime configuration operations (spec/43_runtime_config.md): setContrast, setInverted
and setRotation.
-/

namespace Sys2Proof.Machine

/-- SETCONTRAST (R140): `EV` is written (spec/90_conflicts.md C1). -/
def execSetContrast (v : Nat) (s : State) : Host.Outcome State Fault Refusal :=
  onBlock s <|
    if runtime s.life then
      runOp false
        (emits (cmdFrames s.hasCs (encContrast s.params (maskContrast v).toNat))
          ++ [.write (.ev (maskContrast v))]) s
    else raiseError .lifecycleError s

/-- SETINVERTED (R141): the byte is sent even if `INV` already equals the operand. -/
def execSetInverted (b : Bool) (s : State) : Host.Outcome State Fault Refusal :=
  onBlock s <|
    if runtime s.life then
      runOp false (emits (cmdFrames s.hasCs (encPolarity s.params b)) ++ [.write (.inv b)]) s
    else raiseError .lifecycleError s

/-- SETROTATION (R142): the operand is checked before the lifecycle state. -/
def execSetRotation (rot : Nat) (s : State) : Host.Outcome State Fault Refusal :=
  onBlock s <|
    match legalRotation rot with
    | none => raiseError .configError s
    | some r =>
      if runtime s.life then
        runOp false
          (emits (cmdFrames s.hasCs (encSegDir s.params r ++ encComDir s.params r))
            ++ [.write (.rot r)]) s
      else raiseError .lifecycleError s

end Sys2Proof.Machine
end

