-- ==== Sys2Proof/Machine/Dispatch.lean ====
section
/-!
DEFINITION. The one match from instructions to meanings.
-/

namespace Sys2Proof.Machine

def exec (i : Instr) (s : State) : Host.Outcome State Fault Refusal :=
  match i with
  | .construct hcs hrst rot inv con rat => Sys2Proof.Machine.execConstruct hcs hrst rot inv con rat s
  | .reset => Sys2Proof.Machine.execReset s
  | .initialise rot inv con rat => Sys2Proof.Machine.execInitialise rot inv con rat s
  | .present => Sys2Proof.Machine.execPresent s
  | .setContrast v => Sys2Proof.Machine.execSetContrast v s
  | .setInverted b => Sys2Proof.Machine.execSetInverted b s
  | .setRotation rot => Sys2Proof.Machine.execSetRotation rot s
  | .setSleeping b => Sys2Proof.Machine.execSetSleeping b s
  | .setPixel x y c => Sys2Proof.Machine.execSetPixel x y c s
  | .getPixel x y => Sys2Proof.Machine.execGetPixel x y s
  | .fill c => Sys2Proof.Machine.execFill c s
  | .bufWrite n v => Sys2Proof.Machine.execBufWrite n v s
  | .bufRead n => Sys2Proof.Machine.execBufRead n s
  | .reservedD bits => Sys2Proof.Machine.execReservedD bits s
  | .reservedEF bits => Sys2Proof.Machine.execReservedEF bits s
  | .collsb n => Sys2Proof.Machine.execCollsb n s
  | .colmsb n => Sys2Proof.Machine.execColmsb n s
  | .regratio r => Sys2Proof.Machine.execRegratio r s
  | .powerctrl vb vr vf => Sys2Proof.Machine.execPowerctrl vb vr vf s
  | .startline l => Sys2Proof.Machine.execStartline l s
  | .setev e => Sys2Proof.Machine.execSetev e s
  | .segdir reverse => Sys2Proof.Machine.execSegdir reverse s
  | .bias oneSeventh => Sys2Proof.Machine.execBias oneSeventh s
  | .allpix on => Sys2Proof.Machine.execAllpix on s
  | .inverse inv => Sys2Proof.Machine.execInverse inv s
  | .disponoff on => Sys2Proof.Machine.execDisponoff on s
  | .pageaddr p => Sys2Proof.Machine.execPageaddr p s
  | .comdir reverse => Sys2Proof.Machine.execComdir reverse s
  | .swreset => Sys2Proof.Machine.execSwreset s
  | .setbooster level => Sys2Proof.Machine.execSetbooster level s
  | .data d => Sys2Proof.Machine.execData d s

end Sys2Proof.Machine
end

