-- ==== Sys2Proof/WellFormed.lean ====
section
/-!
DEFINITION. Which instructions have an encoding: every numeric operand fits the field that
spec/30_encoding.md R67 (host words) or R73 (controller bytes) gives it. An abstract operation with a
wider operand has no word form (R69); its meaning is still given by `exec`.
-/

namespace Sys2Proof

/-- Every operand fits its field. -/
def Instr.wellFormed : Instr → Bool
  | .construct _ _ rot _ con rat => rot < 512 && con < 256 && rat < 256
  | .reset => true
  | .initialise rot _ con rat => rot < 512 && con < 256 && rat < 256
  | .present => true
  | .setContrast v => v < 256
  | .setInverted _ => true
  | .setRotation rot => rot < 512
  | .setSleeping _ => true
  | .setPixel x y c => x < 256 && y < 256 && c < 2
  | .getPixel x y => x < 256 && y < 256
  | .fill c => c < 2
  | .bufWrite i _ => i < 1024
  | .bufRead i => i < 1024
  | .reservedD bits => bits < 2 ^ 28
  | .reservedEF bits => bits < 2 ^ 29
  | .collsb n => n < 16
  | .colmsb n => n < 16
  | .regratio r => r < 8
  | .powerctrl _ _ _ => true
  | .startline l => l < 64
  | .setev e => e < 64
  | .segdir _ => true
  | .bias _ => true
  | .allpix _ => true
  | .inverse _ => true
  | .disponoff _ => true
  | .pageaddr p => p < 16
  | .comdir _ => true
  | .swreset => true
  | .setbooster _ => true
  | .data _ => true

end Sys2Proof
end

