-- ==== Sys2Proof/Decode.lean ====
section
/-!
DEFINITION. Decoding and encoding. The host request word (spec/30_encoding.md R65 to R70) and the
controller bytes with their DC level (R73 to R78) are read into `Instr` by total functions that reject
by name; `encode` is written from the same tables. The assembler forms of R79 to R81 stand at the end.
-/

namespace Sys2Proof

/-- Why a word or a byte run is no instruction. -/
inductive DecodeError where
  /-- A reserved field of the named operation's word is not zero (R70). -/
  | reservedFieldSet (mnemonic : String)
  /-- A prefixed command's prefix byte with no byte after it (R75). -/
  | missingOperand (mnemonic : String)
  /-- The byte after a prefix byte is its operand, whatever its value (R75), and the named row gives
  the bits that are set in it no meaning (R73). -/
  | reservedOperandBits (mnemonic : String)
  /-- No row of R73 matches this command byte: "not a byte this block emits" (R78). -/
  | noCommandRow (b : Byte)
  /-- No byte at all. -/
  | noByte
deriving DecidableEq, Repr

/-- `v[hi:lo]` (spec/00_scope.md R13): bits `hi` down to `lo`, shifted down to bit 0. -/
def field {n : Nat} (v : BitVec n) (hi lo : Nat) : Nat := v.toNat / 2 ^ lo % 2 ^ (hi + 1 - lo)

/-- `v[i]` as a boolean, 1 = true (R67). -/
def bit {n : Nat} (v : BitVec n) (i : Nat) : Bool := decide (field v i i = 1)

/-- `i` if the reserved field is zero, and else a rejection that names the operation (R70). -/
def ifReservedZero (reserved : Nat) (mnemonic : String) (i : Instr) : Except DecodeError Instr :=
  if reserved = 0 then .ok i else .error (.reservedFieldSet mnemonic)

/-- The host request word's decoder (R65 to R68, R70): OP in bits [31:28] chooses the format. -/
def decodeRequest (w : Word) : Except DecodeError Instr :=
  match field w 31 28 with
  | 0 => .ok (.construct (bit w 27) (bit w 26) (field w 25 17) (bit w 16) (field w 15 8) (field w 7 0))
  | 1 => ifReservedZero (field w 27 0) "RESET" .reset
  | 2 => ifReservedZero (field w 27 26) "INITIALIZE"
      (.initialise (field w 25 17) (bit w 16) (field w 15 8) (field w 7 0))
  | 3 => ifReservedZero (field w 27 0) "PRESENT" .present
  | 4 => ifReservedZero (field w 27 8) "SETCONTRAST" (.setContrast (field w 7 0))
  | 5 => ifReservedZero (field w 27 1) "SETINVERTED" (.setInverted (bit w 0))
  | 6 => ifReservedZero (field w 27 9) "SETROTATION" (.setRotation (field w 8 0))
  | 7 => ifReservedZero (field w 27 1) "SETSLEEPING" (.setSleeping (bit w 0))
  | 8 => ifReservedZero (field w 27 24 + field w 7 1) "SETPIXEL"
      (.setPixel (field w 23 16) (field w 15 8) (field w 0 0))
  | 9 => ifReservedZero (field w 27 24 + field w 7 0) "GETPIXEL"
      (.getPixel (field w 23 16) (field w 15 8))
  | 10 => ifReservedZero (field w 27 1) "FILL" (.fill (field w 0 0))
  | 11 => ifReservedZero (field w 27 26 + field w 15 8) "BUFWRITE"
      (.bufWrite (field w 25 16) (BitVec.ofNat 8 (field w 7 0)))
  | 12 => ifReservedZero (field w 27 26 + field w 15 0) "BUFREAD" (.bufRead (field w 25 16))
  | 13 => .ok (.reservedD (field w 27 0))
  | _ => .ok (.reservedEF (field w 28 0))

/-- The byte after a prefix byte, read as its operand whatever its value (R75). -/
def decodeOperand (rest : List Byte) (width : Nat) (mnemonic : String) (i : Nat → Instr) :
    Except DecodeError (Instr × List Byte) :=
  match rest with
  | [] => .error (.missingOperand mnemonic)
  | o :: rest' =>
    if o.toNat < 2 ^ width then .ok (i o.toNat, rest') else .error (.reservedOperandBits mnemonic)

/-- One controller command from its first byte and the bytes after it (R73, R75, R78): the row with
`b & mask = match`. The rows are disjoint, so their order does not matter. -/
def decodeCommand (b : Byte) (rest : List Byte) : Except DecodeError (Instr × List Byte) :=
  if b &&& 0xF0 = 0x00 then .ok (.collsb (field b 3 0), rest)
  else if b &&& 0xF0 = 0x10 then .ok (.colmsb (field b 3 0), rest)
  else if b &&& 0xF8 = 0x20 then .ok (.regratio (field b 2 0), rest)
  else if b &&& 0xF8 = 0x28 then .ok (.powerctrl (bit b 2) (bit b 1) (bit b 0), rest)
  else if b &&& 0xC0 = 0x40 then .ok (.startline (field b 5 0), rest)
  else if b &&& 0xFF = 0x81 then decodeOperand rest 6 "SETEV" .setev
  else if b &&& 0xFE = 0xA0 then .ok (.segdir (bit b 0), rest)
  else if b &&& 0xFE = 0xA2 then .ok (.bias (bit b 0), rest)
  else if b &&& 0xFE = 0xA4 then .ok (.allpix (bit b 0), rest)
  else if b &&& 0xFE = 0xA6 then .ok (.inverse (bit b 0), rest)
  else if b &&& 0xFE = 0xAE then .ok (.disponoff (bit b 0), rest)
  else if b &&& 0xF0 = 0xB0 then .ok (.pageaddr (field b 3 0), rest)
  else if b &&& 0xF0 = 0xC0 then .ok (.comdir (bit b 3), rest)
  else if b &&& 0xFF = 0xE2 then .ok (.swreset, rest)
  else if b &&& 0xFF = 0xF8 then decodeOperand rest 1 "SETBOOSTER" (fun o => .setbooster (decide (o = 1)))
  else .error (.noCommandRow b)

/-- One instruction of the controller layer from the bytes sent with the DC line at `dc`, with the
bytes left over: every byte sent with DC = High is display data (R76), and one sent with DC = Low a
command (R73). -/
def decodeWire (dc : Level) (bs : List Byte) : Except DecodeError (Instr × List Byte) :=
  match dc, bs with
  | _, [] => .error .noByte
  | .high, d :: rest => .ok (.data d, rest)
  | .low, b :: rest => decodeCommand b rest

/-- What carries one instruction: a request word on the host port, or bytes on the wire with the
level of DC. -/
inductive Code where
  | request (w : Word)
  | wire (dc : Level) (bs : List Byte)
deriving DecidableEq, Repr

/-- The instruction of a whole code; bytes left over are rejected as the start of another one. -/
def decode : Code → Except DecodeError Instr
  | .request w => decodeRequest w
  | .wire dc bs =>
    match decodeWire dc bs with
    | .error e => .error e
    | .ok (i, []) => .ok i
    | .ok (_, b :: _) => .error (.noCommandRow b)

/-- The table's bits laid out as the block carries them: one request word for the 32-bit rows, and
the command byte and its operand byte for the 8-bit rows. -/
def tableBytes (w : Nat) : List Byte := [BitVec.ofNat 8 w, BitVec.ofNat 8 (w / 2 ^ 8)]

/-- The decoder over spec/opcode_table.json's numbering: rows of 32 bits are request words, rows of 8
bits (16 with the operand byte of a C2B row) are command bytes, sent with DC = Low. A DATA byte has
the bits of a command byte and is told apart by DC = High only (R76), which the table's bits do not
hold: `decodeWire .high` reads it. -/
def decodeTableWord (nbits w : Nat) : Option Instr :=
  if nbits = 32 then (decodeRequest (BitVec.ofNat 32 w)).toOption
  else if nbits = 8 ∨ nbits = 16 then ((decodeWire .low (tableBytes w)).map Prod.fst).toOption
  else none

/-- A request word from its operation code and the value of bits [27:0]. -/
def requestWord (op payload : Nat) : Code := .request (BitVec.ofNat 32 (op * 2 ^ 28 + payload))

/-- A command frame's bytes. -/
def commandCode (bs : List Nat) : Code := .wire .low (bs.map (BitVec.ofNat 8))

/-- The code of an instruction, from the format tables R66 and R73 (operand fields at the places R67
and R74 give them). For an instruction that is not well formed the value means nothing. -/
def encode : Instr → Code
  | .construct hcs hrst rot inv con rat =>
    requestWord 0 (hcs.toNat * 2 ^ 27 + hrst.toNat * 2 ^ 26 + rot * 2 ^ 17 + inv.toNat * 2 ^ 16
      + con * 2 ^ 8 + rat)
  | .reset => requestWord 1 0
  | .initialise rot inv con rat =>
    requestWord 2 (rot * 2 ^ 17 + inv.toNat * 2 ^ 16 + con * 2 ^ 8 + rat)
  | .present => requestWord 3 0
  | .setContrast v => requestWord 4 v
  | .setInverted b => requestWord 5 b.toNat
  | .setRotation rot => requestWord 6 rot
  | .setSleeping b => requestWord 7 b.toNat
  | .setPixel x y c => requestWord 8 (x * 2 ^ 16 + y * 2 ^ 8 + c)
  | .getPixel x y => requestWord 9 (x * 2 ^ 16 + y * 2 ^ 8)
  | .fill c => requestWord 10 c
  | .bufWrite i v => requestWord 11 (i * 2 ^ 16 + v.toNat)
  | .bufRead i => requestWord 12 (i * 2 ^ 16)
  | .reservedD bits => requestWord 13 bits
  | .reservedEF bits => requestWord 14 bits
  | .collsb n => commandCode [n]
  | .colmsb n => commandCode [0x10 + n]
  | .regratio r => commandCode [0x20 + r]
  | .powerctrl vb vr vf => commandCode [0x28 + vb.toNat * 4 + vr.toNat * 2 + vf.toNat]
  | .startline l => commandCode [0x40 + l]
  | .setev e => commandCode [0x81, e]
  | .segdir s => commandCode [0xA0 + s.toNat]
  | .bias s => commandCode [0xA2 + s.toNat]
  | .allpix s => commandCode [0xA4 + s.toNat]
  | .inverse s => commandCode [0xA6 + s.toNat]
  | .disponoff s => commandCode [0xAE + s.toNat]
  | .pageaddr p => commandCode [0xB0 + p]
  | .comdir s => commandCode [0xC0 + s.toNat * 8]
  | .swreset => commandCode [0xE2]
  | .setbooster r => commandCode [0xF8, r.toNat]
  | .data d => .wire .high [d]

/-- The pseudo-operations (R80). -/
inductive PseudoOp where
  | sleep
  | wake
  | clear
  | contrast (n : Nat)
deriving DecidableEq, Repr

/-- "Each expands to exactly one operation" (R80). -/
def expandPseudo : PseudoOp → Instr
  | .sleep => .setSleeping true
  | .wake => .setSleeping false
  | .clear => .fill 0
  | .contrast n => .setContrast n

/-- The `construct` line of R79: an omitted named operand takes its default there
(`rot=0, inv=0, ev=0x1F, rr=0x03`, and `cs` and `rst` 1). -/
def asmConstruct (cs rst : Bool := true) (rot : Nat := 0) (inv : Bool := false) (ev : Nat := 0x1F)
    (rr : Nat := 0x03) : Instr :=
  .construct cs rst rot inv ev rr

/-- A boolean operand in assembler, `<0|1>`. -/
def asmBool (b : Bool) : String := if b then "1" else "0"

/-- One instruction as spec/30_encoding.md writes it: a host operation in the syntax of R79, a
controller byte as in R81. The reserved words have no assembler line; they are written as the word. -/
def asm : Instr → String
  | .construct hcs hrst rot inv con rat =>
    "construct cs=" ++ asmBool hcs ++ ", rst=" ++ asmBool hrst ++ ", rot=" ++ toString rot ++ ", inv="
      ++ asmBool inv ++ ", ev=" ++ toString con ++ ", rr=" ++ toString rat
  | .reset => "reset"
  | .initialise rot inv con rat =>
    "initialize rot=" ++ toString rot ++ ", inv=" ++ asmBool inv ++ ", ev=" ++ toString con ++ ", rr="
      ++ toString rat
  | .present => "present"
  | .setContrast v => "setcontrast " ++ toString v
  | .setInverted b => "setinverted " ++ asmBool b
  | .setRotation rot => "setrotation " ++ toString rot
  | .setSleeping b => "setsleeping " ++ asmBool b
  | .setPixel x y c => "setpixel " ++ toString x ++ ", " ++ toString y ++ ", " ++ toString c
  | .getPixel x y => "getpixel " ++ toString x ++ ", " ++ toString y
  | .fill c => "fill " ++ toString c
  | .bufWrite i v => "bufwrite " ++ toString i ++ ", " ++ toString v.toNat
  | .bufRead i => "bufread " ++ toString i
  | .reservedD bits => "; word " ++ toString (13 * 2 ^ 28 + bits)
  | .reservedEF bits => "; word " ++ toString (14 * 2 ^ 28 + bits)
  | .collsb n => "COLLSB " ++ toString n
  | .colmsb n => "COLMSB " ++ toString n
  | .regratio r => "REGRATIO " ++ toString r
  | .powerctrl vb vr vf => "POWERCTRL " ++ toString (vb.toNat * 4 + vr.toNat * 2 + vf.toNat)
  | .startline l => "STARTLINE " ++ toString l
  | .setev e => "SETEV " ++ toString e
  | .segdir s => "SEGDIR " ++ asmBool s
  | .bias s => "BIAS " ++ asmBool s
  | .allpix s => "ALLPIX " ++ asmBool s
  | .inverse s => "INVERSE " ++ asmBool s
  | .disponoff s => "DISPONOFF " ++ asmBool s
  | .pageaddr p => "PAGEADDR " ++ toString p
  | .comdir s => "COMDIR " ++ asmBool s
  | .swreset => "SWRESET"
  | .setbooster r => "SETBOOSTER " ++ asmBool r
  | .data d => "DATA " ++ toString d.toNat

end Sys2Proof
end

