-- ==== Sys2Proof/Machine/Sequencer.lean ====
section
/-!
DEFINITION. The protocol sequencer inside an operation (spec/10_state.md R30): one event a step, "front
to back, one event at a time, with no branches", and the next instruction of the controller layer where
a whole frame stands in front. `exec` runs an operation whole (spec/20_memory.md R48); a state whose
`SEQ` is Busy is one inside an operation.
-/

namespace Sys2Proof.Machine

/-- An operation's list taken up, nothing of it done yet (R30). -/
def beginOp (building : Bool) (acts : List Action) (s : State) : State :=
  { s with seq := .busy acts building }

/-- "When `rest` becomes empty ... the sequencer writes `STATUS`/`RDATA` and returns to Idle" (R30). -/
def settle (s : State) : State :=
  match s.seq with
  | .busy [] _ => respond .ok 0x00 s
  | .busy (_ :: _) _ => s
  | .idle => s

/-- One step of the sequencer: the front entry, and the end of the operation when it was the last or
failed (R30, spec/70_reset_and_hazards.md R202: "each event is one step"). -/
def tick (s : State) : State :=
  match s.seq with
  | .idle => s
  | .busy [] _ => settle s
  | .busy (a :: rest) building =>
    match perform a s with
    | .accepted t => settle { t with seq := .busy rest building }
    | .failed t => transportFailure building t

/-- `n` steps of the sequencer. -/
def ticks : Nat → State → State
  | 0, s => s
  | n + 1, s => ticks n (tick s)

/-- The frame of one byte in front of a list (spec/40_command_encoder.md R85), with what is after it. -/
def takeFrame (hasCs : Bool) (acts : List Action) : Option (Level × Byte × List Action) :=
  if hasCs then
    match acts with
    | .emit (.setLine .dc dc) :: .emit (.setLine .cs .low) :: .emit (.write [b])
        :: .emit (.setLine .cs .high) :: rest => some (dc, b, rest)
    | _ => none
  else
    match acts with
    | .emit (.setLine .dc dc) :: .emit (.write [b]) :: rest => some (dc, b, rest)
    | _ => none

/-- The bytes of the controller instruction in front: one frame, or a prefix byte's frame and its
operand's, sent with the same level of DC ("the block always emits the operand in the very next command
frame", spec/30_encoding.md R75). -/
def takeWire (hasCs : Bool) (acts : List Action) : Option (Instr × Level × List Byte × List Action) :=
  match takeFrame hasCs acts with
  | none => none
  | some (dc, b, rest) =>
    match decode (.wire dc [b]) with
    | .ok i => some (i, dc, [b], rest)
    | .error (.missingOperand _) =>
      match takeFrame hasCs rest with
      | none => none
      | some (dc', o, rest') =>
        if dc' = dc then
          match decode (.wire dc [b, o]) with
          | .ok i => some (i, dc, [b, o], rest')
          | .error _ => none
        else none
    | .error _ => none

/-- The controller instruction the sequencer stands before, and the state past its frames; only where
sending that instruction sends exactly those bytes. -/
def nextCommand (s : State) : Option (Instr × State) :=
  match s.seq with
  | .idle => none
  | .busy acts building =>
    match takeWire s.hasCs acts with
    | none => none
    | some (i, dc, bs, rest) =>
      if wireBytes s.params i = some (dc, bs) then some (i, { s with seq := .busy rest building })
      else none

/-- The meaning reads registers of a block: every one but construct's, which makes the block, and the
reserved operation codes', which are no operation and are ILLEGAL in any state (spec/60_exceptions.md
R171). -/
def needsBlock : Instr → Bool
  | .construct _ _ _ _ _ _ => false
  | .reset => true
  | .initialise _ _ _ _ => true
  | .present => true
  | .setContrast _ => true
  | .setInverted _ => true
  | .setRotation _ => true
  | .setSleeping _ => true
  | .setPixel _ _ _ => true
  | .getPixel _ _ => true
  | .fill _ => true
  | .bufWrite _ _ => true
  | .bufRead _ => true
  | .reservedD _ => false
  | .reservedEF _ => false
  | .collsb _ => true
  | .colmsb _ => true
  | .regratio _ => true
  | .powerctrl _ _ _ => true
  | .startline _ => true
  | .setev _ => true
  | .segdir _ => true
  | .bias _ => true
  | .allpix _ => true
  | .inverse _ => true
  | .disponoff _ => true
  | .pageaddr _ => true
  | .comdir _ => true
  | .swreset => true
  | .setbooster _ => true
  | .data _ => true

/-- Before a block exists the host has only construct (spec/93_implementation_defined.md U5). -/
def admitted (i : Instr) (s : State) : Bool := s.constructed || !needsBlock i

/-- The state once the host's next word has been handed over (R174). -/
def popRequest (rest : List Word) (s : State) : State := { s with requests := rest }

/-- A request word put in front of the host's others, with the sequencer Idle so that it is next. -/
def putRequest (w : Word) (s : State) : State :=
  { s with requests := w :: s.requests, seq := .idle }

/-- A controller instruction put where the sequencer takes its next one: inside an operation of which
it is the last part. -/
def putCommand (dc : Level) (bs : List Byte) (s : State) : State :=
  { s with seq := .busy (emits (match dc with
      | .low => cmdFrames s.hasCs bs
      | .high => frame s.hasCs .high bs)) false }

/-- The instruction of a word of spec/opcode_table.json put where `step` takes its next instruction
(log entry 9). -/
def putTableWord (nbits w : Nat) (s : State) : State :=
  if nbits = 32 then putRequest (BitVec.ofNat 32 w) s
  else
    match decodeTableWord nbits w with
    | none => putCommand .low [BitVec.ofNat 8 w] s
    | some i =>
      match wireBytes s.params i with
      | none => putCommand .low [BitVec.ofNat 8 w] s
      | some (dc, bs) => putCommand dc bs s

end Sys2Proof.Machine
end

