-- ==== Sys2Proof/Machine/Wire.lean ====
section
/-!
DEFINITION. What the controller sees: the wire view of a trace (spec/00_scope.md R12) and its decoder
(spec/30_encoding.md R78).
-/

namespace Sys2Proof.Machine

/-- The wire view (R12): one pair for each byte of each write, with the DC level most recently set
before it; `dc` is the level at the start. -/
def wireView (dc : Level) : List Event → List (Level × Byte)
  | [] => []
  | .setLine .dc v :: rest => wireView v rest
  | .setLine .cs _ :: rest => wireView dc rest
  | .setLine .rst _ :: rest => wireView dc rest
  | .delay _ :: rest => wireView dc rest
  | .write bs :: rest => bs.map (fun b => (dc, b)) ++ wireView dc rest

/-- The delays of a trace, in order (spec/70_reset_and_hazards.md R195). -/
def delays : List Event → List Nat
  | [] => []
  | .delay n :: rest => n :: delays rest
  | .setLine _ _ :: rest => delays rest
  | .write _ :: rest => delays rest

/-- One row of the table of R73: mnemonic, match, mask. -/
structure CommandRow where
  mnemonic : String
  pattern : Byte
  mask : Byte
deriving DecidableEq, Repr

/-- The table of R73, in its order. -/
def commandRows : List CommandRow :=
  [⟨"COLLSB", 0x00, 0xF0⟩, ⟨"COLMSB", 0x10, 0xF0⟩, ⟨"REGRATIO", 0x20, 0xF8⟩,
    ⟨"POWERCTRL", 0x28, 0xF8⟩, ⟨"STARTLINE", 0x40, 0xC0⟩, ⟨"SETEV", 0x81, 0xFF⟩,
    ⟨"SEGDIR", 0xA0, 0xFE⟩, ⟨"BIAS", 0xA2, 0xFE⟩, ⟨"ALLPIX", 0xA4, 0xFE⟩, ⟨"INVERSE", 0xA6, 0xFE⟩]
  ++ [⟨"DISPONOFF", 0xAE, 0xFE⟩, ⟨"PAGEADDR", 0xB0, 0xF0⟩, ⟨"COMDIR", 0xC0, 0xF0⟩,
    ⟨"SWRESET", 0xE2, 0xFF⟩, ⟨"SETBOOSTER", 0xF8, 0xFF⟩]

/-- The row a command byte matches: `b & mask = match` (R78). -/
def rowMatches (b : Byte) (r : CommandRow) : Bool := b &&& r.mask == r.pattern

/-- What one pair of a wire view is (R78). -/
inductive WireClass where
  /-- Display data. -/
  | data (b : Byte)
  /-- The operand of the prefix byte before it. -/
  | operand (b : Byte)
  /-- A command of the named row. -/
  | command (mnemonic : String) (b : Byte)
  /-- "Not a byte this block emits" (R77). -/
  | none (b : Byte)
deriving DecidableEq, Repr

/-- The prefix bytes, which await an operand (R75). -/
def isPrefixByte (b : Byte) : Bool := b == 0x81 || b == 0xF8

/-- The class of a command byte that is no operand (R78). -/
def classifyCommand (b : Byte) : WireClass :=
  match commandRows.find? (rowMatches b) with
  | some r => .command r.mnemonic b
  | .none => .none b

/-- The wire-view decoder (R78); `awaiting` says that the previous command byte was a prefix still
awaiting its operand. -/
def classify (awaiting : Bool) : List (Level × Byte) → List WireClass
  | [] => []
  | (.high, b) :: rest => .data b :: classify awaiting rest
  | (.low, b) :: rest =>
    if awaiting then .operand b :: classify false rest
    else classifyCommand b :: classify (isPrefixByte b) rest

end Sys2Proof.Machine
end

