-- ==== Sys2Proof/Machine/Step.lean ====
section
/-!
DEFINITION. One step. Idle, the block takes the host's next request word and runs its operation whole
(spec/30_encoding.md R65; spec/20_memory.md R48); with no request it waits ("Nothing happens in the
block except as part of a host operation", spec/60_exceptions.md R172). Busy, the sequencer goes on
with the running operation (spec/10_state.md R30).
-/

namespace Sys2Proof.Machine

/-- One step of the machine. A word that encodes nothing is answered ILLEGAL (R70). -/
def step (s : State) : Host.Outcome State Fault Refusal :=
  match s.seq with
  | .idle =>
    match s.requests with
    | [] => .next s
    | w :: rest =>
      match decodeRequest w with
      | .error _ => .next (raiseError .illegal (popRequest rest s))
      | .ok i => if admitted i s then exec i (popRequest rest s) else .refused .beforeConstruct
  | .busy _ _ =>
    match nextCommand s with
    | none => .next (tick s)
    | some (i, t) =>
      match exec i t with
      | .next u => .next (settle u)
      | .fault r => .fault r
      | .refused r => .refused r

/-- `s` with the instruction of a table word where `step` takes its next one: on the host port for a
request word, in the sequencer for a controller byte (log entry 9). -/
def State.withFetchWord (s : State) (nbits w : Nat) : State := putTableWord nbits w s

end Sys2Proof.Machine
end

