-- ==== Sys2Proof/Safety.lean ====
section
/-!
DEFINITION. What the claims call a good state: the parameters have legal values, the Pixel Buffer is in
its canonical form, and the registers stand as the spec says they do between operations.
-/

namespace Sys2Proof.Machine

/-- The legal values of the parameters (spec/00_scope.md R8). -/
def Params.legal (p : Params) : Bool :=
  decide (1 ≤ p.colOffset180) && decide (p.colOffset180 ≤ 255) && decide (5 ≤ p.resetLowUs)
    && decide (5 ≤ p.resetHighUs) && (p.biasCmd == 0xA2 || p.biasCmd == 0xA3)
    && Memory.wf p.bufInit

/-- What holds of a state between operations, whatever the host asks and whatever the collaborators do. -/
structure State.Inv (s : State) : Prop where
  /-- The parameters are legal (R8). -/
  paramsLegal : Params.legal s.params = true
  /-- The Pixel Buffer is in canonical form, inside `0..BUF_LEN-1` (spec/20_memory.md R50). -/
  bufWf : Memory.wf s.buf = true
  /-- No operation is running (spec/60_exceptions.md R173: "After any response the block is Idle"). -/
  idle : s.seq = .idle
  /-- "Between operations `LIFE` is never Unreset" (spec/42_lifecycle.md R121). -/
  lifeKnown : s.constructed = true → s.life ≠ .unreset
  /-- Without a chip-select line nothing drives its level (spec/10_state.md R22). -/
  noCsLine : s.constructed = true → s.hasCs = false → s.csLvl = .high
  /-- Without a reset line nothing drives its level (R22). -/
  noRstLine : s.constructed = true → s.hasRst = false → s.rstLvl = .high

/-- The lines as they stand between operations (spec/10_state.md R30): "Between operations
`CS_LVL = High` and `RST_LVL = High` hold". -/
def State.linesIdle (s : State) : Prop := s.csLvl = .high ∧ s.rstLvl = .high

/-- `n` steps, none of which stops, lead from the first state to the second. -/
def stepsTo : Nat → State → State → Prop
  | 0, s, t => t = s
  | n + 1, s, t => ∃ u, step s = .next u ∧ stepsTo n u t

/-- The event can fail: "every `emit SetLine(·)` and every `emit Write(·)`"; a `Delay` never does
(spec/60_exceptions.md R168). -/
def canFail : Event → Bool
  | .setLine _ _ => true
  | .write _ => true
  | .delay _ => false

/-- How many of the events can fail. -/
def emissions (es : List Event) : Nat := (es.filter canFail).length

/-- The next `n` emissions are accepted: the collaborators' next failure, if any, comes later (R168). -/
def quietFor (n : Nat) : List Failure → Bool
  | [] => true
  | f :: _ => decide (n ≤ f.after)

/-- The failures still to come after `n` accepted emissions. -/
def afterQuiet (n : Nat) : List Failure → List Failure
  | [] => []
  | f :: rest => { f with after := f.after - n } :: rest

/-- The level a line is left at by a list of accepted events. -/
def levelAfter (l : Line) (v : Level) : List Event → Level
  | [] => v
  | .setLine l' v' :: rest => levelAfter l (if l' = l then v' else v) rest
  | .write _ :: rest => levelAfter l v rest
  | .delay _ :: rest => levelAfter l v rest

/-- The state after a list of accepted events. -/
def delivered (es : List Event) (s : State) : State :=
  { s with
    trace := s.trace ++ es, failures := afterQuiet (emissions es) s.failures,
    csLvl := levelAfter .cs s.csLvl es, dcLvl := levelAfter .dc s.dcLvl es,
    rstLvl := levelAfter .rst s.rstLvl es }

/-- The state in which an emission failed after the events `pre` were accepted: "the failing event is the
last event of the operation's trace" (R168), and the line of a failed `SetLine` holds the free level of
the failure, the other lines "the level of the last `SetLine` that succeeded" (R169). -/
def failedAt (pre : List Event) (e : Event) (f : Failure) (rest : List Failure) (s : State) : State :=
  match e with
  | .setLine l _ => setLevel l f.level (record e rest (delivered pre s))
  | .write _ => record e rest (delivered pre s)
  | .delay _ => record e rest (delivered pre s)

/-- The events in a list of actions. -/
def eventsOf : List Action → List Event
  | [] => []
  | .emit e :: rest => e :: eventsOf rest
  | .write _ :: rest => eventsOf rest

/-- The block takes a host operation: one exists (spec/10_state.md R35) and the sequencer is Idle
(spec/60_exceptions.md R174). -/
def State.ready (s : State) : Prop := s.seq = .idle ∧ s.constructed = true

/-- The event list of a host operation, "computed, whole, at its start ... a function of the operation,
its operands, and the register values at that moment" (spec/10_state.md R30): `none` where a check
raises an error instead (spec/60_exceptions.md R171). The controller layer's instructions and the
reserved words are no host operations. -/
def planned (i : Instr) (s : State) : Option (List Event) :=
  match i with
  | .construct hcs hrst rot inv con rat =>
    (legalRotation rot).map fun r =>
      idleLevels hcs hrst ++ resetEvents s.params hcs hrst ++ initEvents s.params hcs r inv con rat
  | .reset => some (resetEvents s.params s.hasCs s.hasRst)
  | .initialise rot inv con rat =>
    if s.life = .resetting then
      (legalRotation rot).map fun r => initEvents s.params s.hasCs r inv con rat
    else none
  | .present =>
    if runtime s.life then some (presentEvents s.params s.hasCs (colOff s) s.buf) else none
  | .setContrast v =>
    if runtime s.life then some (cmdFrames s.hasCs (encContrast s.params v)) else none
  | .setInverted b =>
    if runtime s.life then some (cmdFrames s.hasCs (encPolarity s.params b)) else none
  | .setRotation rot =>
    if runtime s.life then
      (legalRotation rot).map fun r => cmdFrames s.hasCs (encSegDir s.params r ++ encComDir s.params r)
    else none
  | .setSleeping b =>
    if runtime s.life then some (cmdFrames s.hasCs (sleepBytes s.params b)) else none
  | .setPixel _ _ _ => some []
  | .getPixel x y => if onDisplay x y then some [] else none
  | .fill _ => some []
  | .bufWrite n _ => if n < bufLen then some [] else none
  | .bufRead n => if n < bufLen then some [] else none
  | .reservedD _ => none
  | .reservedEF _ => none
  | .collsb _ => none
  | .colmsb _ => none
  | .regratio _ => none
  | .powerctrl _ _ _ => none
  | .startline _ => none
  | .setev _ => none
  | .segdir _ => none
  | .bias _ => none
  | .allpix _ => none
  | .inverse _ => none
  | .disponoff _ => none
  | .pageaddr _ => none
  | .comdir _ => none
  | .swreset => none
  | .setbooster _ => none
  | .data _ => none

/-- Wherever among the events `es` the collaborators' next failure falls, the operation ends there with
TRANSPORT_ERROR and with no register of its own written (R168 to R170). -/
def stopsAtFailure (i : Instr) (es : List Event) (s : State) : Prop :=
  ∀ (pre : List Event) (e : Event) (post : List Event) (f : Failure) (rest : List Failure),
    es = pre ++ e :: post → canFail e = true → s.failures = f :: rest → f.after = emissions pre →
    exec i s = .next { failedAt pre e f rest s with status := .transportError, rdata := 0x00 }

end Sys2Proof.Machine
end

