-- ==== Sys2Proof/Certificates/Slice0/Obligations.lean ====
section
/-!
DEFINITION. The statements for the provers. Each docstring names the rules of spec/ the statement
formalises or rests on; log entries are those of notes/assumptions/.
-/

open Sys2Proof Sys2Proof.Machine

-- Encoding

/-- Decoding the code of a well-formed instruction gives it back, for every row of the opcode table
(spec/30_encoding.md R65 to R68, R73 to R76). -/
def Obligations.DecodeInvertsEncode : Prop :=
  ∀ i : Instr, i.wellFormed = true → decode (encode i) = .ok i

/-- A request word that decodes is the code of what it decodes to, which is well formed: no bit of a
legal word is dropped (R65 to R68, R70). -/
def Obligations.RequestWordsAreCodes : Prop :=
  ∀ (w : Word) (i : Instr), decodeRequest w = .ok i →
    i.wellFormed = true ∧ encode i = .request w

/-- Words written out from the formats of R66 with the operation codes of R68, command bytes from the
table of R73 (spec/95_test_vectors.md V1 to V17, V50 to V54), and a data byte. -/
def Obligations.SpecWordsDecode : Prop :=
  decodeRequest 0x0C001F03#32 = .ok (.construct true true 0 false 0x1F 3) ∧
  decodeRequest 0x21692005#32 = .ok (.initialise 180 true 0x20 5) ∧
  decodeRequest 0x4000002A#32 = .ok (.setContrast 0x2A) ∧
  decodeRequest 0x600000B4#32 = .ok (.setRotation 180) ∧
  decodeRequest 0x80050A01#32 = .ok (.setPixel 5 10 1) ∧
  decodeRequest 0xB08000AA#32 = .ok (.bufWrite 128 0xAA) ∧
  decode (.wire .low [0x81, 0x05]) = .ok (.setev 5) ∧
  decode (.wire .low [0x05]) = .ok (.collsb 5) ∧
  decode (.wire .low [0x2F]) = .ok (.powerctrl true true true) ∧
  decode (.wire .low [0xC8]) = .ok (.comdir true) ∧
  decode (.wire .high [0x81]) = .ok (.data 0x81)

/-- The match and mask of every host operation's format, from R66 and R68. -/
def hostFormats : List (Word × Word) :=
  [(0x00000000, 0xF0000000), (0x10000000, 0xFFFFFFFF), (0x20000000, 0xFC000000),
    (0x30000000, 0xFFFFFFFF), (0x40000000, 0xFFFFFF00), (0x50000000, 0xFFFFFFFE),
    (0x60000000, 0xFFFFFE00)]
  ++ [(0x70000000, 0xFFFFFFFE), (0x80000000, 0xFF0000FE), (0x90000000, 0xFF0000FF),
    (0xA0000000, 0xFFFFFFFE), (0xB0000000, 0xFC00FF00), (0xC0000000, 0xFC00FFFF)]

/-- R70: a word with a reserved operation code or a reserved field that is not zero (it fits none of
the formats of R66) is illegal: no event, no state change, `STATUS = ILLEGAL`, `RDATA = 0`. It holds in
every lifecycle state, and where no block exists (log entry 20). -/
def Obligations.IllegalWordIsAnsweredIllegal : Prop :=
  ∀ (s : State) (w : Word) (rest : List Word), s.seq = .idle → s.requests = w :: rest →
    (∀ f ∈ hostFormats, w &&& f.2 ≠ f.1) →
    step s = .next { s with requests := rest, status := .illegal, rdata := 0x00 }

/-- A word that fits a format of R66 is never illegal: it decodes to an operation of R68. -/
def Obligations.LegalWordDecodesToOperation : Prop :=
  ∀ (w : Word), (∃ f ∈ hostFormats, w &&& f.2 = f.1) →
    ∃ i, decodeRequest w = .ok i ∧ (∀ b, i ≠ .reservedD b) ∧ (∀ b, i ≠ .reservedEF b)

/-- The reserved operation codes as instructions (rows RESERVED_D and RESERVED_EF): they complete with
ILLEGAL and change nothing else (R70), also where no block exists (log entry 20). -/
def Obligations.ReservedCodesAreIllegal : Prop :=
  ∀ (bits : Nat) (s : State), s.seq = .idle →
    exec (.reservedD bits) s = .next { s with status := .illegal, rdata := 0x00 } ∧
    exec (.reservedEF bits) s = .next { s with status := .illegal, rdata := 0x00 }

/-- "The match/mask pairs of rule R73 are disjoint, so at most one row matches" (R78), and the command
decoder accepts exactly the bytes that a row matches, with an operand after the two prefixed ones. -/
def Obligations.CommandRowsAreDisjoint : Prop :=
  ∀ b : Byte, (commandRows.filter (rowMatches b)).length ≤ 1 ∧
    ((decode (.wire .low [b]) = .error (.noCommandRow b)) ↔ commandRows.filter (rowMatches b) = [])

/-- R75: the byte after a prefix byte is its operand, whatever its value, never an opcode; the bytes
after it are read afresh. -/
def Obligations.ByteAfterPrefixIsOperand : Prop :=
  ∀ (pre o : Byte) (rest : List (Level × Byte)), isPrefixByte pre = true →
    classify false ((.low, pre) :: (.low, o) :: rest) =
      classifyCommand pre :: .operand o :: classify false rest ∧
    (∀ (bs : List Byte) (i : Instr) (more : List Byte),
      decodeWire .low (pre :: o :: bs) = .ok (i, more) →
        more = bs ∧ ((∃ e, i = .setev e) ∨ (∃ r, i = .setbooster r)))

/-- With the default constants of R86 the encoder functions send exactly the codes of R73's table:
derived, since the default constants rest on log entry 11. -/
def Obligations.EncoderAgreesWithCommandTable : Prop :=
  ∀ (i : Instr) (dc : Level) (bs : List Byte), i.wellFormed = true →
    wireBytes defaultParams i = some (dc, bs) → encode i = .wire dc bs

-- The step

/-- A step from Idle with a request waiting runs the decoded operation on the state with that request
taken: in a block whatever the operation, and where no block exists construct ("no other operation exists
before construct", spec/60_exceptions.md R174; spec/42_lifecycle.md R123) and the reserved words (log
entry 20). -/
def Obligations.StepRunsRequest : Prop :=
  ∀ (s : State) (w : Word) (rest : List Word) (i : Instr), s.seq = .idle → s.requests = w :: rest →
    decodeRequest w = .ok i → admitted i s = true →
    step s = exec i { s with requests := rest }

/-- A step with the frames of a controller instruction in front of the sequencer runs that instruction
on the state past those frames, and ends the operation if nothing is left. The model's choice: that one
step takes the whole of such an instruction, where spec/10_state.md R30 has the sequencer emit one event
at a time, is log entries 7 and 8; SequencerStepsAreTheOperation says that the runs agree. -/
def Obligations.StepRunsCommand : Prop :=
  ∀ (s : State) (i : Instr) (dc : Level) (bs : List Byte) (rest : List Action) (b : Bool),
    s.seq = .busy (emits (bs.flatMap fun x => frame s.hasCs dc [x]) ++ rest) b →
    decode (.wire dc bs) = .ok i → wireBytes s.params i = some (dc, bs) →
    step s = match exec i { s with seq := .busy rest b } with
      | .next u => .next (settle u)
      | .fault r => .fault r
      | .refused r => .refused r

/-- "Nothing happens in the block except as part of a host operation" (spec/60_exceptions.md R172):
with no request a step changes nothing (log entry 19). -/
def Obligations.NothingHappensWithoutRequest : Prop :=
  ∀ s : State, s.seq = .idle → s.requests = [] → step s = .next s

/-- Before a block exists a meaning that reads a register faults (spec/10_state.md R35), and a step
refuses the request for it (spec/60_exceptions.md R174; spec/93_implementation_defined.md U5); that the one
is a fault and the other a refusal is log entry 12. The meanings that read none are construct's and, by log
entry 20, the reserved words'; StepRunsRequest says that a step runs those, and IllegalWordIsAnsweredIllegal
that a word of no format is answered. -/
def Obligations.NoBlockNoRegisters : Prop :=
  ∀ (s : State), s.constructed = false → s.seq = .idle →
    (∀ i : Instr, needsBlock i = true → exec i s = .fault .noBlock) ∧
    (∀ (w : Word) (rest : List Word) (i : Instr), s.requests = w :: rest →
      decodeRequest w = .ok i → needsBlock i = true → step s = .refused .beforeConstruct)

-- Framing and the encoder

/-- R85: the frame. R103: each byte goes in its own command frame, in list order; so the wire view is
the bytes as commands, in order, whatever the framing (R12). -/
def Obligations.EachCommandByteHasItsFrame : Prop :=
  ∀ (hasCs : Bool) (bs cs : List Byte) (b : Byte) (dc : Level) (es : List Event),
    frame true dc bs = [.setLine .dc dc, .setLine .cs .low, .write bs, .setLine .cs .high] ∧
    frame false dc bs = [.setLine .dc dc, .write bs] ∧
    cmdFrames hasCs [] = [] ∧
    cmdFrames hasCs (b :: bs) = frame hasCs .low [b] ++ cmdFrames hasCs bs ∧
    cmdFrames hasCs (bs ++ cs) = cmdFrames hasCs bs ++ cmdFrames hasCs cs ∧
    wireView dc (cmdFrames hasCs (b :: bs) ++ es) =
      (b :: bs).map (fun x => (Level.low, x)) ++ wireView .low es

/-- The masked encoder functions R90, R91, R92, R95 and R97, for every operand and every value of the
opcode constants: the field is the operand truncated to its width, OR'd into the base. -/
def Obligations.NumericEncodersMaskAndOr : Prop :=
  ∀ (p : Params) (n : Nat),
    encPage p n = [p.cmd.page ||| BitVec.ofNat 8 (n % 16)] ∧
    encColumn p n = [p.cmd.colMsb ||| BitVec.ofNat 8 (n / 16 % 16),
      p.cmd.colLsb ||| BitVec.ofNat 8 (n % 16)] ∧
    encContrast p n = [p.cmd.setEv, BitVec.ofNat 8 (n % 64)] ∧
    encRatio p n = [p.cmd.regRatio ||| BitVec.ofNat 8 (n % 8)] ∧
    encStartLine p n = [p.cmd.startLine ||| BitVec.ofNat 8 (n % 64)]

/-- R88: numeric operands are truncated to their field's width, and enumerated operands are never
masked: a rotation outside 0 and 180 is none. -/
def Obligations.OperandsMaskButRotationDoesNot : Prop :=
  ∀ n : Nat,
    (maskContrast n).toNat = n % 64 ∧ (maskRatio n).toNat = n % 8 ∧ (maskPage n).toNat = n % 16 ∧
    (maskColumn n).toNat = n % 256 ∧ (maskLine n).toNat = n % 64 ∧
    (legalRotation n = some .deg0 ↔ n = 0) ∧ (legalRotation n = some .deg180 ↔ n = 180) ∧
    (legalRotation n = none ↔ n ≠ 0 ∧ n ≠ 180)

-- Lifecycle

/-- R35 and R190, with construct's operands at their defaults: the registers after the power-on reset
(log entry 1 says that the model's reset state is the one after that construct). -/
def Obligations.ResetRegisters : Prop :=
  State.reset.constructed = true ∧ State.reset.hasCs = true ∧ State.reset.hasRst = true ∧
  State.reset.life = .initialized ∧ State.reset.rot = .deg0 ∧ State.reset.inv = false ∧
  State.reset.ev = 0x1F ∧ State.reset.rr = 0x03 ∧ colOff State.reset = 0 ∧
  State.reset.csLvl = .high ∧ State.reset.dcLvl = .low ∧ State.reset.rstLvl = .high ∧
  (∀ i, Memory.read State.reset.buf i = 0x00) ∧ State.reset.seq = .idle ∧
  State.reset.status = .ok ∧ State.reset.rdata = 0x00

/-- The events of R191, numbered 1 to 7 and then one command frame for each of the 16 bytes. -/
def goldenConstruct : List Event :=
  [.setLine .cs .high, .setLine .dc .low, .setLine .rst .high, .setLine .rst .low, .delay 5,
    .setLine .rst .high, .delay 5]
  ++ cmdFrames true [0xE2, 0xF8, 0x00, 0xA2, 0xA0, 0xC0, 0xA6, 0x23]
  ++ cmdFrames true [0x81, 0x1F, 0x2C, 0x2E, 0x2F, 0x40, 0xA4, 0xAF]

/-- R191: with both optional lines and the defaults, construct from no block emits exactly the 71 events
and leaves the registers of `State.reset`. Derived: the byte values rest on log entry 11, and that no
emission fails on the model's reset value of the free input (log entry 6). -/
def Obligations.DefaultConstructEmitsGoldenSequence : Prop :=
  exec asmConstruct State.powerOn = .next { State.reset with trace := goldenConstruct } ∧
  goldenConstruct.length = 71

/-- CONSTRUCT, R123: with a rotation of 0 or 180 and no failing emission it completes, from any state
in which no operation runs, with every register of R35 written and the events of its pseudocode in
order; wherever the collaborators' next failure falls among those events it ends there, the failing event
the last of the trace (R168), and leaves no block (R169). That it runs where a block exists already is log
entry 13; that the level field of a line that is absent holds High, where R22 gives no such register, is
log entry 14. -/
def Obligations.ConstructMakesBlock : Prop :=
  ∀ (hcs hrst : Bool) (rot : Nat) (inv : Bool) (con rat : Nat) (r : Rotation) (s : State)
    (es : List Event), s.seq = .idle → legalRotation rot = some r →
    es = idleLevels hcs hrst ++ resetEvents s.params hcs hrst
      ++ cmdFrames hcs (initSeq s.params r inv (BitVec.ofNat 6 con) (BitVec.ofNat 3 rat)) →
    (quietFor (emissions es) s.failures = true →
      exec (.construct hcs hrst rot inv con rat) s = .next { s with
        constructed := true, hasCs := hcs, hasRst := hrst, life := .initialized, rot := r, inv := inv,
        ev := BitVec.ofNat 6 con, rr := BitVec.ofNat 3 rat, csLvl := .high, dcLvl := .low,
        rstLvl := .high, buf := s.params.bufInit, trace := s.trace ++ es,
        failures := afterQuiet (emissions es) s.failures, status := .ok, rdata := 0x00 }) ∧
    (∀ f rest, s.failures = f :: rest → f.after < emissions es →
      ∃ pre e post t, es = pre ++ e :: post ∧ canFail e = true ∧ f.after = emissions pre ∧
        exec (.construct hcs hrst rot inv con rat) s = .next t ∧ t.constructed = false ∧
        t.status = .transportError ∧ t.rdata = 0x00 ∧ t.seq = .idle ∧ t.failures = rest ∧
        t.trace = s.trace ++ pre ++ [e])

/-- RESET, R124: valid in every lifecycle state; the pulse only with a reset line, then the software
reset command; `LIFE` becomes Resetting, and DeviceConfig, the buffer and the straps are kept (R36). -/
def Obligations.ResetPulsesAndGoesToResetting : Prop :=
  ∀ (s : State) (es : List Event), s.ready →
    es = (if s.hasRst then [.setLine .rst .low, .delay s.params.resetLowUs, .setLine .rst .high,
        .delay s.params.resetHighUs] else [])
      ++ frame s.hasCs .low [s.params.cmd.swReset] →
    (quietFor (emissions es) s.failures = true →
      exec .reset s = .next { s with
        life := .resetting, csLvl := if s.hasCs then .high else s.csLvl, dcLvl := .low,
        rstLvl := if s.hasRst then .high else s.rstLvl, trace := s.trace ++ es,
        failures := afterQuiet (emissions es) s.failures, status := .ok, rdata := 0x00 }) ∧
    stopsAtFailure .reset es s

/-- R122: the initialization sequence, in its mandatory order, for every value of the parameters; with
the default constants it is the 15 bytes of R122 (the last clause rests on log entry 11). -/
def Obligations.InitSequenceOrder : Prop :=
  (∀ (p : Params) (r : Rotation) (inv : Bool) (ev : BitVec 6) (rr : BitVec 3),
    initSeq p r inv ev rr = encBooster p ++ encBias p ++ encSegDir p r ++ encComDir p r
      ++ encPolarity p inv ++ encRatio p rr.toNat ++ [p.cmd.setEv, ev.setWidth 8]
      ++ encPower p true false false ++ encPower p true true false ++ encPower p true true true
      ++ encStartLine p 0 ++ encAllPixels p false ++ encDisplay p true ∧
    (initSeq p r inv ev rr).getLast? = some p.cmd.displayOn) ∧
  initSeq defaultParams .deg0 false 0x1F 0x03 =
    [0xF8, 0x00, 0xA2, 0xA0, 0xC0, 0xA6, 0x23, 0x81, 0x1F, 0x2C, 0x2E, 0x2F, 0x40, 0xA4, 0xAF]

/-- INITIALIZE, R125: from Resetting with a legal rotation it sends the whole sequence and stores the
masked operands; outside Resetting LIFECYCLE_ERROR; a rotation that is not 0 or 180 is CONFIG_ERROR,
which is checked first. -/
def Obligations.InitializeReplaysSequence : Prop :=
  ∀ (rot : Nat) (inv : Bool) (con rat : Nat) (s : State), s.ready →
    (∀ (r : Rotation) (es : List Event), legalRotation rot = some r →
      es = cmdFrames s.hasCs (initSeq s.params r inv (BitVec.ofNat 6 con) (BitVec.ofNat 3 rat)) →
      (s.life = .resetting → quietFor (emissions es) s.failures = true →
        exec (.initialise rot inv con rat) s = .next { s with
          life := .initialized, rot := r, inv := inv, ev := BitVec.ofNat 6 con,
          rr := BitVec.ofNat 3 rat, csLvl := if s.hasCs then .high else s.csLvl, dcLvl := .low,
          trace := s.trace ++ es, failures := afterQuiet (emissions es) s.failures,
          status := .ok, rdata := 0x00 }) ∧
      (s.life = .resetting → stopsAtFailure (.initialise rot inv con rat) es s) ∧
      (s.life ≠ .resetting →
        exec (.initialise rot inv con rat) s =
          .next { s with status := .lifecycleError, rdata := 0x00 })) ∧
    (legalRotation rot = none →
      exec (.initialise rot inv con rat) s = .next { s with status := .configError, rdata := 0x00 })

/-- SETSLEEPING, R126: the two bytes every time, the lifecycle state of the operand, and nothing else of
the block (no DeviceConfig, no buffer, no column offset). -/
def Obligations.SetSleepingSwitchesDisplay : Prop :=
  ∀ (b : Bool) (s : State) (es : List Event), s.ready →
    es = cmdFrames s.hasCs (if b then [s.params.cmd.displayOff, s.params.cmd.allpxOn]
      else [s.params.cmd.allpxNormal, s.params.cmd.displayOn]) →
    (runtime s.life = true → quietFor (emissions es) s.failures = true →
      exec (.setSleeping b) s = .next { s with
        life := if b then .sleeping else .initialized,
        csLvl := if s.hasCs then .high else s.csLvl, dcLvl := .low, trace := s.trace ++ es,
        failures := afterQuiet (emissions es) s.failures, status := .ok, rdata := 0x00 }) ∧
    (runtime s.life = true → stopsAtFailure (.setSleeping b) es s) ∧
    (runtime s.life = false →
      exec (.setSleeping b) s = .next { s with status := .lifecycleError, rdata := 0x00 })

/-- R165 and R171: a rotation that is not 0 or 180 is CONFIG_ERROR, before any lifecycle check and any
event, and leaves everything but the response as it was. That construct is answered so in every Idle
state, leaving a block that exists as it is, is log entry 13; the answer where there is none, log entry
12. -/
def Obligations.BadRotationIsConfigError : Prop :=
  ∀ (rot : Nat) (s : State), rot ≠ 0 → rot ≠ 180 → s.seq = .idle →
    (∀ (hcs hrst inv : Bool) (con rat : Nat),
      exec (.construct hcs hrst rot inv con rat) s =
        .next { s with status := .configError, rdata := 0x00 }) ∧
    (s.constructed = true → ∀ (inv : Bool) (con rat : Nat),
      exec (.initialise rot inv con rat) s =
        .next { s with status := .configError, rdata := 0x00 }) ∧
    (s.constructed = true →
      exec (.setRotation rot) s = .next { s with status := .configError, rdata := 0x00 })

/-- R166: in Unreset and Resetting the runtime operations, present and setSleeping are LIFECYCLE_ERROR,
and initialize is so outside Resetting; nothing but the response changes. -/
def Obligations.LifecycleGate : Prop :=
  ∀ (s : State), s.ready →
    ((s.life = .unreset ∨ s.life = .resetting) →
      ∀ i ∈ [Instr.present, .setRotation 0, .setRotation 180],
        exec i s = .next { s with status := .lifecycleError, rdata := 0x00 }) ∧
    ((s.life = .unreset ∨ s.life = .resetting) → ∀ (v : Nat) (b : Bool),
      exec (.setContrast v) s = .next { s with status := .lifecycleError, rdata := 0x00 } ∧
      exec (.setInverted b) s = .next { s with status := .lifecycleError, rdata := 0x00 } ∧
      exec (.setSleeping b) s = .next { s with status := .lifecycleError, rdata := 0x00 }) ∧
    (s.life ≠ .resetting → ∀ (inv : Bool) (con rat : Nat), ∀ rot ∈ [0, 180],
      exec (.initialise rot inv con rat) s =
        .next { s with status := .lifecycleError, rdata := 0x00 })

-- Present and the Addressing Mapper

/-- R110: the eight page segments are the buffer, in index order. -/
def Obligations.SegmentsPartitionBuffer : Prop :=
  ∀ m : Memory,
    (List.range 8).flatMap (pageSegment m) = (List.range 1024).map (Memory.read m) ∧
    ∀ p, pageSegment m p = (List.range 128).map fun j => Memory.read m (p * 128 + j)

/-- R29: `COLOFF` is a function of `ROT`, 0 at 0 degrees and the truncated parameter at 180; so after
a setRotation that ends OK it is that of the operand. -/
def Obligations.ColumnOffsetFollowsRotation : Prop :=
  (∀ s : State, colOff s = match s.rot with
    | .deg0 => 0
    | .deg180 => BitVec.ofNat 8 s.params.colOffset180) ∧
  (∀ (rot : Nat) (r : Rotation) (s t : State), legalRotation rot = some r →
    exec (.setRotation rot) s = .next t → t.status = .ok →
    colOff t = match r with
      | .deg0 => 0
      | .deg180 => BitVec.ofNat 8 s.params.colOffset180)

/-- The page-write sequence of R111 for page `p`, as events. -/
def pageWriteEvents (s : State) (p : Nat) : List Event :=
  cmdFrames s.hasCs [s.params.cmd.startLine, s.params.cmd.page ||| BitVec.ofNat 8 (p % 16),
      s.params.cmd.colMsb ||| BitVec.ofNat 8 ((colOff s).toNat / 16),
      s.params.cmd.colLsb ||| BitVec.ofNat 8 ((colOff s).toNat % 16)]
    ++ frame s.hasCs .high ((List.range 128).map fun j => Memory.read s.buf (p * 128 + j))

/-- PRESENT, R112: in Initialized and Sleeping it sends the eight page-write sequences of R111 in order
and writes only the levels of CS and DC; elsewhere LIFECYCLE_ERROR. -/
def Obligations.PresentSendsWholeBuffer : Prop :=
  ∀ (s : State) (es : List Event), s.ready →
    es = pageWriteEvents s 0 ++ pageWriteEvents s 1 ++ pageWriteEvents s 2 ++ pageWriteEvents s 3
      ++ pageWriteEvents s 4 ++ pageWriteEvents s 5 ++ pageWriteEvents s 6 ++ pageWriteEvents s 7 →
    (runtime s.life = true → quietFor (if s.hasCs then 160 else 80) s.failures = true →
      exec .present s = .next { s with
        csLvl := if s.hasCs then .high else s.csLvl, dcLvl := .high, trace := s.trace ++ es,
        failures := afterQuiet (if s.hasCs then 160 else 80) s.failures,
        status := .ok, rdata := 0x00 }) ∧
    (runtime s.life = true → stopsAtFailure .present es s) ∧
    (runtime s.life = false →
      exec .present s = .next { s with status := .lifecycleError, rdata := 0x00 })

/-- R113: a present that ends OK has in its wire view the eight page-write sequences, pages 0 to 7, each
with its slice of the buffer, 1056 pairs in all; it emits 160 events with a chip-select line and 80
without, no delay and nothing on the reset line. -/
def Obligations.PresentWireView : Prop :=
  ∀ (s t : State) (dc : Level), exec .present s = .next t → t.status = .ok →
    ∃ es, t.trace = s.trace ++ es ∧
      wireView dc es = (List.range 8).flatMap (fun p =>
        [(Level.low, s.params.cmd.startLine),
          (.low, s.params.cmd.page ||| BitVec.ofNat 8 p),
          (.low, s.params.cmd.colMsb ||| BitVec.ofNat 8 ((colOff s).toNat / 16)),
          (.low, s.params.cmd.colLsb ||| BitVec.ofNat 8 ((colOff s).toNat % 16))]
        ++ (List.range 128).map fun j => (Level.high, Memory.read s.buf (p * 128 + j))) ∧
      (wireView dc es).length = 1056 ∧ es.length = (if s.hasCs then 160 else 80) ∧
      delays es = [] ∧ ∀ v, Event.setLine .rst v ∉ es

/-- R114: present is a function of `BUF`, `COLOFF` and `HAS_CS` (and of the parameters): two presents
that end OK from states that agree on these emit the same events. -/
def Obligations.PresentDependsOnBufferOffsetAndCs : Prop :=
  ∀ (s s' t t' : State), s.buf = s'.buf → colOff s = colOff s' → s.hasCs = s'.hasCs →
    s.params = s'.params → exec .present s = .next t → exec .present s' = .next t' →
    t.status = .ok → t'.status = .ok →
    ∃ es, t.trace = s.trace ++ es ∧ t'.trace = s'.trace ++ es

/-- R127 and R114: a sleep, a wake and a present that end OK emit, in that present, the byte stream that
the present alone would have, and leave `BUF`, DeviceConfig and `COLOFF` unchanged. -/
def Obligations.SleepCycleKeepsImage : Prop :=
  ∀ (s a b c d : State), exec (.setSleeping true) s = .next a → a.status = .ok →
    exec (.setSleeping false) a = .next b → b.status = .ok →
    exec .present b = .next c → c.status = .ok → exec .present s = .next d → d.status = .ok →
    (∃ es, c.trace = b.trace ++ es ∧ d.trace = s.trace ++ es) ∧
    b.life = .initialized ∧ b.buf = s.buf ∧ b.rot = s.rot ∧ b.inv = s.inv ∧ b.ev = s.ev ∧
    b.rr = s.rr ∧ colOff b = colOff s

-- Runtime configuration

/-- SETCONTRAST, R140: the two bytes of the masked operand, which is stored. -/
def Obligations.SetContrastMasksSendsAndStores : Prop :=
  ∀ (v : Nat) (s : State) (es : List Event), s.ready →
    es = cmdFrames s.hasCs [s.params.cmd.setEv, BitVec.ofNat 8 (v % 64)] →
    (runtime s.life = true → quietFor (if s.hasCs then 8 else 4) s.failures = true →
      exec (.setContrast v) s = .next { s with
        ev := BitVec.ofNat 6 v, csLvl := if s.hasCs then .high else s.csLvl, dcLvl := .low,
        trace := s.trace ++ es, failures := afterQuiet (if s.hasCs then 8 else 4) s.failures,
        status := .ok, rdata := 0x00 }) ∧
    (runtime s.life = true → stopsAtFailure (.setContrast v) es s) ∧
    (runtime s.life = false →
      exec (.setContrast v) s = .next { s with status := .lifecycleError, rdata := 0x00 })

/-- SETINVERTED, R141: the polarity byte, every time, and `INV`. -/
def Obligations.SetInvertedSendsPolarity : Prop :=
  ∀ (b : Bool) (s : State) (es : List Event), s.ready →
    es = frame s.hasCs .low [if b then s.params.cmd.dispInverse else s.params.cmd.dispNormal] →
    (runtime s.life = true → quietFor (if s.hasCs then 4 else 2) s.failures = true →
      exec (.setInverted b) s = .next { s with
        inv := b, csLvl := if s.hasCs then .high else s.csLvl, dcLvl := .low,
        trace := s.trace ++ es, failures := afterQuiet (if s.hasCs then 4 else 2) s.failures,
        status := .ok, rdata := 0x00 }) ∧
    (runtime s.life = true → stopsAtFailure (.setInverted b) es s) ∧
    (runtime s.life = false →
      exec (.setInverted b) s = .next { s with status := .lifecycleError, rdata := 0x00 })

/-- SETROTATION, R142: the two direction bytes, segment first, and `ROT`; no buffer byte is sent. The
rotation check stands before the lifecycle check. -/
def Obligations.SetRotationSendsDirections : Prop :=
  ∀ (rot : Nat) (s : State), s.ready →
    (∀ (r : Rotation) (es : List Event), legalRotation rot = some r →
      es = cmdFrames s.hasCs (match r with
        | .deg0 => [s.params.segCmd0, s.params.comCmd0]
        | .deg180 => [s.params.segCmd180, s.params.comCmd180]) →
      (runtime s.life = true → quietFor (if s.hasCs then 8 else 4) s.failures = true →
        exec (.setRotation rot) s = .next { s with
          rot := r, csLvl := if s.hasCs then .high else s.csLvl, dcLvl := .low,
          trace := s.trace ++ es, failures := afterQuiet (if s.hasCs then 8 else 4) s.failures,
          status := .ok, rdata := 0x00 }) ∧
      (runtime s.life = true → stopsAtFailure (.setRotation rot) es s) ∧
      (runtime s.life = false →
        exec (.setRotation rot) s = .next { s with status := .lifecycleError, rdata := 0x00 })) ∧
    (legalRotation rot = none →
      exec (.setRotation rot) s = .next { s with status := .configError, rdata := 0x00 })

-- Pixel Buffer

/-- SETPIXEL, R151, in every lifecycle state: on the display one bit of one byte becomes the colour's,
every other bit and every other byte reads as before; off the display nothing is written and the
response is still OK. -/
def Obligations.SetPixelWritesOneBit : Prop :=
  ∀ (x y c : Nat) (s : State), s.ready → Memory.wf s.buf = true →
    ∃ m, exec (.setPixel x y c) s = .next { s with buf := m, status := .ok, rdata := 0x00 } ∧
      ((128 ≤ x ∨ 64 ≤ y) → m = s.buf) ∧
      (x < 128 → y < 64 → ∀ i k, k < 8 →
        (Memory.read m i).getLsbD k =
          if i = y / 8 * 128 + x ∧ k = y % 8 then decide (c ≠ 0)
          else (Memory.read s.buf i).getLsbD k)

/-- GETPIXEL, R152, in every lifecycle state: the bit at row `y`, column `x`; off the display
ILLEGAL with `RDATA = 0`. -/
def Obligations.GetPixelReadsOneBit : Prop :=
  ∀ (x y : Nat) (s : State), s.ready →
    (x < 128 → y < 64 →
      exec (.getPixel x y) s = .next { s with
        status := .ok,
        rdata := if (Memory.read s.buf (y / 8 * 128 + x)).getLsbD (y % 8) then 1 else 0 }) ∧
    ((128 ≤ x ∨ 64 ≤ y) →
      exec (.getPixel x y) s = .next { s with status := .illegal, rdata := 0x00 })

/-- FILL, R153, in every lifecycle state: every byte of the buffer becomes 0xFF or 0x00, as the loop of
byte writes over the whole buffer makes it. -/
def Obligations.FillWritesEveryByte : Prop :=
  ∀ (c : Nat) (s : State), s.ready → Memory.wf s.buf = true →
    ∃ m, exec (.fill c) s = .next { s with buf := m, status := .ok, rdata := 0x00 } ∧
      (∀ i, i < 1024 → Memory.read m i = if c ≠ 0 then 0xFF else 0x00) ∧
      m = (List.range 1024).foldl
        (fun b i => Memory.write b i (if c ≠ 0 then 0xFF else 0x00)) s.buf

/-- BUFWRITE, R154, in every lifecycle state: the byte at the index, and no other, reads as the
operand; from index 1024 on ILLEGAL and no change. -/
def Obligations.BufWriteWritesOneByte : Prop :=
  ∀ (i : Nat) (v : Byte) (s : State), s.ready → Memory.wf s.buf = true →
    (i < 1024 → ∃ m, exec (.bufWrite i v) s = .next { s with buf := m, status := .ok, rdata := 0x00 } ∧
      ∀ j, Memory.read m j = if j = i then v else Memory.read s.buf j) ∧
    (1024 ≤ i → exec (.bufWrite i v) s = .next { s with status := .illegal, rdata := 0x00 })

/-- BUFREAD, R155, in every lifecycle state: the byte at the index; from index 1024 on ILLEGAL with
`RDATA = 0`. -/
def Obligations.BufReadReadsOneByte : Prop :=
  ∀ (i : Nat) (s : State), s.ready →
    (i < 1024 →
      exec (.bufRead i) s = .next { s with status := .ok, rdata := Memory.read s.buf i }) ∧
    (1024 ≤ i → exec (.bufRead i) s = .next { s with status := .illegal, rdata := 0x00 })

/-- R45: on the display different pixels are different bits, so a getPixel after a setPixel answers the
colour at that pixel and the old bit at every other. -/
def Obligations.PixelsAreIndependent : Prop :=
  ∀ (x y c x' y' : Nat) (s t : State), s.ready → Memory.wf s.buf = true → x < 128 → y < 64 →
    x' < 128 → y' < 64 → exec (.setPixel x y c) s = .next t →
    ∃ u u', exec (.getPixel x' y') t = .next u ∧ exec (.getPixel x' y') s = .next u' ∧
      u.rdata = if x' = x ∧ y' = y then (if c ≠ 0 then 1 else 0) else u'.rdata

-- The controller layer

/-- Every instruction of the controller layer completes by sending its bytes (R73, R76, R85, R103): a
command byte a frame, or one data byte in a data frame; the block's registers but the levels of CS and
DC are unchanged. That running such an instruction is sending it is log entry 8. -/
def Obligations.CommandsSendTheirBytes : Prop :=
  ∀ (i : Instr) (dc : Level) (bs : List Byte) (s : State) (es : List Event),
    s.constructed = true → wireBytes s.params i = some (dc, bs) →
    es = bs.flatMap (fun b => frame s.hasCs dc [b]) →
    quietFor (emissions es) s.failures = true →
    exec i s = .next { s with
      csLvl := if s.hasCs then .high else s.csLvl, dcLvl := dc, trace := s.trace ++ es,
      failures := afterQuiet (emissions es) s.failures }

/-- The rows of R73 and the DATA row, one by one: which bytes each instruction sends, from its encoder
function (R89 to R102). -/
def Obligations.CommandBytesByRow : Prop :=
  ∀ (p : Params),
    (∀ n, wireBytes p (.collsb n) = some (.low, [p.cmd.colLsb ||| BitVec.ofNat 8 (n % 16)])) ∧
    (∀ n, wireBytes p (.colmsb n) = some (.low, [p.cmd.colMsb ||| BitVec.ofNat 8 (n % 16)])) ∧
    (∀ r, wireBytes p (.regratio r) = some (.low, [p.cmd.regRatio ||| BitVec.ofNat 8 (r % 8)])) ∧
    (∀ vb vr vf, wireBytes p (.powerctrl vb vr vf) = some (.low, [p.cmd.power
      ||| (if vb then p.cmd.powerVb else 0) ||| (if vr then p.cmd.powerVr else 0)
      ||| (if vf then p.cmd.powerVf else 0)])) ∧
    (∀ l, wireBytes p (.startline l) = some (.low, [p.cmd.startLine ||| BitVec.ofNat 8 (l % 64)])) ∧
    (∀ e, wireBytes p (.setev e) = some (.low, [p.cmd.setEv, BitVec.ofNat 8 (e % 64)])) ∧
    (∀ b, wireBytes p (.segdir b) =
      some (.low, [if b then p.cmd.segReverse else p.cmd.segNormal])) ∧
    (∀ b, wireBytes p (.bias b) = some (.low, [if b then p.cmd.bias17 else p.cmd.bias19])) ∧
    (∀ b, wireBytes p (.allpix b) = some (.low, [if b then p.cmd.allpxOn else p.cmd.allpxNormal])) ∧
    (∀ b, wireBytes p (.inverse b) =
      some (.low, [if b then p.cmd.dispInverse else p.cmd.dispNormal])) ∧
    (∀ b, wireBytes p (.disponoff b) =
      some (.low, [if b then p.cmd.displayOn else p.cmd.displayOff])) ∧
    (∀ n, wireBytes p (.pageaddr n) = some (.low, [p.cmd.page ||| BitVec.ofNat 8 (n % 16)])) ∧
    (∀ b, wireBytes p (.comdir b) =
      some (.low, [if b then p.cmd.comReverse else p.cmd.comNormal])) ∧
    wireBytes p .swreset = some (.low, [p.cmd.swReset]) ∧
    (∀ b, wireBytes p (.setbooster b) = some (.low, [p.cmd.setBooster, if b then 1 else 0])) ∧
    (∀ d, wireBytes p (.data d) = some (.high, [d]))

-- Responses and errors

/-- R71: the response word is `STATUS` in bits [10:8] and `RDATA` in bits [7:0], with the codes of R72
(codes 5 to 7 are never produced). -/
def Obligations.ResponseWordLayout : Prop :=
  ∀ s : State,
    responseWord s = BitVec.ofNat 16 ((match s.status with
      | .ok => 0
      | .configError => 1
      | .lifecycleError => 2
      | .transportError => 3
      | .illegal => 4) * 256 + s.rdata.toNat) ∧
    (responseWord s).extractLsb' 11 5 = 0 ∧ ((responseWord s).extractLsb' 8 3).toNat < 5

/-- R170, first case: an error raised by a check changes nothing but `STATUS` and `RDATA`, and emits
nothing, whichever host operation raised it. -/
def Obligations.CheckErrorsChangeNothing : Prop :=
  ∀ (i : Instr) (s t : State), s.seq = .idle → exec i s = .next t →
    (t.status = .configError ∨ t.status = .lifecycleError ∨ t.status = .illegal) →
    (∀ dc bs, wireBytes s.params i ≠ some (dc, bs)) →
    t = { s with status := t.status, rdata := 0x00 }

/-- R168 to R170: wherever the collaborators' next failure falls among an operation's events, the
operation ends there with TRANSPORT_ERROR: the failing event is the trace's last, the lines stand as
R169 says, and no register of the operation is written. Construct is R169's exception. -/
def Obligations.TransportErrorIsPrecise : Prop :=
  ∀ (i : Instr) (s : State) (es : List Event), s.ready → planned i s = some es →
    (∀ hcs hrst rot inv con rat, i ≠ .construct hcs hrst rot inv con rat) →
    stopsAtFailure i es s

/-- A command or data byte whose emission fails ends the operation that was sending it (R168 to R170): the
failing event is the trace's last, the lines stand as R169 says, the sequencer is Idle with
TRANSPORT_ERROR, and there is no block any more if that operation was construct. Last clause, the model's
choice: from Idle, where the block itself sends no byte, the same end (log entry 8). -/
def Obligations.FailedCommandEndsOperation : Prop :=
  ∀ (i : Instr) (dc : Level) (bs : List Byte) (s : State) (pre : List Event) (e : Event)
    (post : List Event) (f : Failure) (rest : List Failure), s.constructed = true →
    wireBytes s.params i = some (dc, bs) →
    bs.flatMap (fun b => frame s.hasCs dc [b]) = pre ++ e :: post → canFail e = true →
    s.failures = f :: rest → f.after = emissions pre →
    (∀ (acts : List Action) (building : Bool), s.seq = .busy acts building →
      exec i s = .next { failedAt pre e f rest s with
        seq := .idle, status := .transportError, rdata := 0x00,
        constructed := s.constructed && !building }) ∧
    (s.seq = .idle →
      exec i s = .next { failedAt pre e f rest s with status := .transportError, rdata := 0x00 })

/-- Every host operation on a block whose checks pass completes OK when its emissions are accepted, and
its trace is the event list computed at its start (spec/10_state.md R30). A construct is covered here only
where a block exists already (log entry 13); ConstructMakesBlock has it from no block too. -/
def Obligations.AcceptedOperationEmitsItsPlan : Prop :=
  ∀ (i : Instr) (s : State) (es : List Event), s.ready → planned i s = some es →
    quietFor (emissions es) s.failures = true →
    ∃ t, exec i s = .next t ∧ t.status = .ok ∧ t.trace = s.trace ++ es ∧ t.seq = .idle ∧
      t.constructed = true ∧ t.failures = afterQuiet (emissions es) s.failures

/-- R203: the event counts, with a booster sequence of two bytes; the pixel operations emit none. -/
def Obligations.EventCounts : Prop :=
  ∀ (i : Instr) (s : State) (es : List Event), planned i s = some es →
    s.params.boosterSeq.length = 2 →
    es.length = match i with
      | .construct hcs hrst _ _ _ _ =>
        1 + (if hcs then 1 else 0) + (if hrst then 5 else 0) + 16 * (if hcs then 4 else 2)
      | .reset => (if s.hasRst then 4 else 0) + (if s.hasCs then 4 else 2)
      | .initialise _ _ _ _ => 15 * (if s.hasCs then 4 else 2)
      | .present => 40 * (if s.hasCs then 4 else 2)
      | .setContrast _ => 2 * (if s.hasCs then 4 else 2)
      | .setInverted _ => if s.hasCs then 4 else 2
      | .setRotation _ => 2 * (if s.hasCs then 4 else 2)
      | .setSleeping _ => 2 * (if s.hasCs then 4 else 2)
      | _ => 0

/-- R195: with legal parameters a reset that ends OK holds RST Low, then High, for the two parameters'
times, each at least 5 microseconds, before the software reset byte; without a reset line there is no
delay. -/
def Obligations.ResetHoldsEachPhase : Prop :=
  ∀ (s t : State), Params.legal s.params = true → exec .reset s = .next t → t.status = .ok →
    5 ≤ s.params.resetLowUs ∧ 5 ≤ s.params.resetHighUs ∧
    (s.hasRst = true →
      t.trace = s.trace ++ [.setLine .rst .low, .delay s.params.resetLowUs, .setLine .rst .high,
        .delay s.params.resetHighUs] ++ frame s.hasCs .low [s.params.cmd.swReset]) ∧
    (s.hasRst = false → t.trace = s.trace ++ frame s.hasCs .low [s.params.cmd.swReset])

-- Frames

/-- What the emitting operations on a block leave alone, whatever the collaborators do: the parameters,
the straps, the buffer, the host's requests, and of DeviceConfig, `LIFE` and `RST_LVL` all but what the
operation's rule writes (R124 to R126, R112, R140 to R142); every byte of memory reads as before. -/
def Obligations.EmittingOperationsFrame : Prop :=
  ∀ (i : Instr) (s t : State), exec i s = .next t →
    (i = .reset ∨ i = .present ∨ (∃ rot inv con rat, i = .initialise rot inv con rat) ∨
      (∃ v, i = .setContrast v) ∨ (∃ b, i = .setInverted b) ∨ (∃ rot, i = .setRotation rot) ∨
      (∃ b, i = .setSleeping b)) →
    t.params = s.params ∧ t.constructed = true ∧ t.hasCs = s.hasCs ∧ t.hasRst = s.hasRst ∧
    t.buf = s.buf ∧ (∀ a, Memory.read t.buf a = Memory.read s.buf a) ∧ t.requests = s.requests ∧
    t.seq = .idle ∧ t.rdata = 0x00 ∧ (∃ es, t.trace = s.trace ++ es) ∧
    (t.life ≠ s.life → i = .reset ∨ (∃ rot inv con rat, i = .initialise rot inv con rat) ∨
      ∃ b, i = .setSleeping b) ∧
    (t.rot ≠ s.rot → (∃ rot inv con rat, i = .initialise rot inv con rat) ∨
      ∃ rot, i = .setRotation rot) ∧
    (t.inv ≠ s.inv → (∃ rot inv con rat, i = .initialise rot inv con rat) ∨
      ∃ b, i = .setInverted b) ∧
    (t.ev ≠ s.ev → (∃ rot inv con rat, i = .initialise rot inv con rat) ∨
      ∃ v, i = .setContrast v) ∧
    (t.rr ≠ s.rr → ∃ rot inv con rat, i = .initialise rot inv con rat) ∧
    (t.rstLvl ≠ s.rstLvl → i = .reset)

/-- What the Pixel Buffer operations leave alone (R150): everything but the buffer and the response
registers, the buffer too for the reading ones; and every byte outside the one a storing operation
stores to. They end OK or ILLEGAL. -/
def Obligations.PixelOperationsFrame : Prop :=
  ∀ (i : Instr) (s t : State), exec i s = .next t → Memory.wf s.buf = true →
    ((∃ x y c, i = .setPixel x y c) ∨ (∃ x y, i = .getPixel x y) ∨ (∃ c, i = .fill c) ∨
      (∃ n v, i = .bufWrite n v) ∨ ∃ n, i = .bufRead n) →
    t = { s with buf := t.buf, status := t.status, rdata := t.rdata } ∧
    (t.status = .ok ∨ t.status = .illegal) ∧
    (∀ x y c a, i = .setPixel x y c → a ≠ pixelIndex x y →
      Memory.read t.buf a = Memory.read s.buf a) ∧
    (∀ n v a, i = .bufWrite n v → a ≠ n → Memory.read t.buf a = Memory.read s.buf a) ∧
    (∀ c a, i = .fill c → bufLen ≤ a → Memory.read t.buf a = Memory.read s.buf a) ∧
    ((∃ x y, i = .getPixel x y) ∨ (∃ n, i = .bufRead n) →
      t.buf = s.buf ∧ ∀ a, Memory.read t.buf a = Memory.read s.buf a)

/-- What an instruction of the controller layer leaves alone, whatever the collaborators do: the
parameters, straps, `LIFE`, DeviceConfig, `RST_LVL`, the buffer and the host's requests; the response
registers and `SEQ` too, unless an emission failed. -/
def Obligations.CommandsFrame : Prop :=
  ∀ (i : Instr) (dc : Level) (bs : List Byte) (s t : State),
    wireBytes s.params i = some (dc, bs) → exec i s = .next t →
    t.params = s.params ∧ t.hasCs = s.hasCs ∧ t.hasRst = s.hasRst ∧ t.life = s.life ∧
    t.rot = s.rot ∧ t.inv = s.inv ∧ t.ev = s.ev ∧ t.rr = s.rr ∧ t.rstLvl = s.rstLvl ∧
    t.buf = s.buf ∧ (∀ a, Memory.read t.buf a = Memory.read s.buf a) ∧ t.requests = s.requests ∧
    (∃ es, t.trace = s.trace ++ es) ∧
    ((t.seq = s.seq ∧ t.status = s.status ∧ t.rdata = s.rdata ∧ t.constructed = s.constructed) ∨
      (t.seq = .idle ∧ t.status = .transportError ∧ t.rdata = 0x00))

/-- What construct leaves alone: the parameters and the host's requests; the trace only grows. Every
byte of the new buffer is `BUF_INIT`'s (R123); that the field still holds it after a construct that ended
with TRANSPORT_ERROR, when no register has a value (R169), is log entry 16. -/
def Obligations.ConstructFrame : Prop :=
  ∀ (hcs hrst : Bool) (rot : Nat) (inv : Bool) (con rat : Nat) (s t : State),
    exec (.construct hcs hrst rot inv con rat) s = .next t →
    t.params = s.params ∧ t.requests = s.requests ∧ t.seq = .idle ∧ t.rdata = 0x00 ∧
    (∃ es, t.trace = s.trace ++ es) ∧
    (t.status ≠ .configError → ∀ a, Memory.read t.buf a = Memory.read s.params.bufInit a)

-- Invariants and whole-machine rules

/-- The power-on reset leaves a good state, and so does power-on without a block. -/
def Obligations.ResetStateIsGood : Prop := State.reset.Inv ∧ State.powerOn.Inv

/-- Every step keeps the invariant, whatever the host asks and whatever the collaborators do: legal
parameters, the buffer's canonical form, `SEQ` Idle between operations (R173), `LIFE` never Unreset
between operations (R121), absent lines never driven (R22; their level is log entry 14). -/
def Obligations.StepKeepsInvariant : Prop :=
  ∀ s t : State, s.Inv → step s = .next t → t.Inv

/-- "Between operations `CS_LVL = High` and `RST_LVL = High` hold" (R30), as long as no emission fails:
every step keeps it. For a line that is absent, of which R22 gives the block no level, it is what log
entry 14 chose for the field. -/
def Obligations.LinesAreIdleBetweenOperations : Prop :=
  ∀ s t : State, s.Inv → s.linesIdle → s.failures = [] → step s = .next t →
    t.linesIdle ∧ t.failures = []

/-- R120 and R128: in a block the lifecycle moves only by the transitions listed, each by an operation
that ended OK; in particular the only ways out of Resetting are an initialize and a new
construct (log entry 13). -/
def Obligations.LifecycleTransitions : Prop :=
  ∀ s t : State, s.Inv → s.constructed = true → step s = .next t → t.constructed = true →
    t.life ≠ s.life →
    t.status = .ok ∧ ∃ w rest i, s.requests = w :: rest ∧ decodeRequest w = .ok i ∧
      ((i = .reset ∧ t.life = .resetting) ∨
        (s.life = .resetting ∧ t.life = .initialized ∧
          ∃ rot inv con rat, i = .initialise rot inv con rat) ∨
        (s.life = .initialized ∧ t.life = .sleeping ∧ i = .setSleeping true) ∨
        (s.life = .sleeping ∧ t.life = .initialized ∧ i = .setSleeping false) ∨
        (t.life = .initialized ∧ ∃ hcs hrst rot inv con rat, i = .construct hcs hrst rot inv con rat))

/-- The writers of the straps, `LIFE`, the DeviceConfig registers and the buffer (R21 to R23, R27, R28,
R32): in a block each changes only by an operation that is listed for it and ended OK. (The line levels
follow every `SetLine`, also of an operation that fails, R170.) -/
def Obligations.RegisterWriters : Prop :=
  ∀ (i : Instr) (s t : State), exec i s = .next t → t.constructed = true →
    (∀ hcs hrst rot inv con rat, i ≠ .construct hcs hrst rot inv con rat) →
    t.hasCs = s.hasCs ∧ t.hasRst = s.hasRst ∧ t.params = s.params ∧
    (t.life ≠ s.life → t.status = .ok ∧
      (i = .reset ∨ (∃ rot inv con rat, i = .initialise rot inv con rat) ∨
        ∃ b, i = .setSleeping b)) ∧
    (t.rr ≠ s.rr → t.status = .ok ∧ ∃ rot inv con rat, i = .initialise rot inv con rat) ∧
    (t.rot ≠ s.rot → t.status = .ok ∧
      ((∃ rot inv con rat, i = .initialise rot inv con rat) ∨ ∃ rot, i = .setRotation rot)) ∧
    (t.inv ≠ s.inv → t.status = .ok ∧
      ((∃ rot inv con rat, i = .initialise rot inv con rat) ∨ ∃ b, i = .setInverted b)) ∧
    (t.ev ≠ s.ev → t.status = .ok ∧
      ((∃ rot inv con rat, i = .initialise rot inv con rat) ∨ ∃ v, i = .setContrast v)) ∧
    (t.buf ≠ s.buf → t.status = .ok ∧
      ((∃ x y c, i = .setPixel x y c) ∨ (∃ c, i = .fill c) ∨ ∃ n v, i = .bufWrite n v))

-- The sequencer

/-- R30, R202: an operation's run is its list taken one entry a step, front to back, until it is empty
or an emission fails, for every list, every state and every run of the collaborators. A step of the
machine from Busy with no controller instruction in front is such a single step; and, whatever is in
front, the machine's own steps lead in a block from the list taken up to the state that the whole
operation gives, with no stop on the way (that `step` may take several entries at once is log entries 7
and 8). -/
def Obligations.SequencerStepsAreTheOperation : Prop :=
  (∀ (b : Bool) (acts : List Action) (s : State), acts ≠ [] →
    ticks acts.length (beginOp b acts s) = runOp b acts s ∧
    (s.constructed = true →
      ∃ n, n ≤ acts.length ∧ stepsTo n (beginOp b acts s) (runOp b acts s))) ∧
  ∀ s : State, s.seq ≠ .idle → nextCommand s = none → step s = .next (tick s)

/-- Each host operation that emits is such a run of the sequencer, and the events of its list are the
ones computed at its start (R30). -/
def Obligations.OperationIsSequencerRun : Prop :=
  ∀ (i : Instr) (s : State) (es : List Event), s.ready → planned i s = some es → es ≠ [] →
    (∀ hcs hrst rot inv con rat, i ≠ .construct hcs hrst rot inv con rat) →
    ∃ acts, eventsOf acts = es ∧ exec i s = .next (ticks acts.length (beginOp false acts s))
end

