-- ==== Sys2Proof/Laws/Decode.lean ====
section
/-!
SUPPORT. Bit fields: their range, their bits, and masks read bit by bit.
-/

namespace Sys2Proof

theorem field_lt {n : Nat} (v : BitVec n) (hi lo : Nat) : field v hi lo < 2 ^ (hi + 1 - lo) :=
  Nat.mod_lt _ (by positivity)

theorem field_one_lt {n : Nat} (v : BitVec n) (i : Nat) : field v i i < 2 := by
  have := field_lt v i i
  simpa using this

/-- A one-bit field as a boolean loses nothing. -/
theorem bit_toNat {n : Nat} (v : BitVec n) (i : Nat) : (bit v i).toNat = field v i i := by
  have := field_one_lt v i
  unfold bit
  by_cases h : field v i i = 1
  · simp [h]
  · have h0 : field v i i = 0 := by omega
    simp [h0]

theorem testBit_field {n : Nat} (v : BitVec n) (hi lo i : Nat) :
    (field v hi lo).testBit i = (decide (i < hi + 1 - lo) && v.getLsbD (lo + i)) := by
  unfold field
  rw [Nat.testBit_mod_two_pow, Nat.testBit_div_two_pow, BitVec.getLsbD, Nat.add_comm lo i]

/-- A field's value, bit by bit. -/
theorem field_eq_iff {n : Nat} (v : BitVec n) (hi lo x : Nat) (hx : x < 2 ^ (hi + 1 - lo)) :
    field v hi lo = x ↔ ∀ i < hi + 1 - lo, v.getLsbD (lo + i) = x.testBit i := by
  constructor
  · rintro rfl i hi'
    simp [testBit_field, hi']
  · intro h
    apply Nat.eq_of_testBit_eq
    intro i
    rw [testBit_field]
    by_cases hi' : i < hi + 1 - lo
    · simp [hi', h i hi']
    · have : x < 2 ^ i := hx.trans_le (Nat.pow_le_pow_right (by decide) (by omega))
      simp [hi', Nat.testBit_lt_two_pow this]

/-- A masked word's value, bit by bit. -/
theorem and_eq_iff {n : Nat} (w m p : BitVec n) :
    w &&& m = p ↔ ∀ i < n, (w.getLsbD i && m.getLsbD i) = p.getLsbD i := by
  constructor
  · rintro rfl i _
    simp
  · intro h
    apply BitVec.eq_of_getLsbD_eq
    intro i hi
    simpa using h i hi

/-- A command decoder in its byte list: the bytes after the first are left over, or the next one is the
operand of SETEV or of SETBOOSTER. -/
def CommandShape (f : List Byte → Except DecodeError (Instr × List Byte)) : Prop :=
  (∃ r : Except DecodeError Instr, ∀ rest, f rest = r.map fun i => (i, rest)) ∨
  (∀ rest, f rest = decodeOperand rest 6 "SETEV" .setev) ∨
  ∀ rest, f rest = decodeOperand rest 1 "SETBOOSTER" (fun o => .setbooster (decide (o = 1)))

theorem CommandShape.ite {f g : List Byte → Except DecodeError (Instr × List Byte)} (p : Prop)
    [Decidable p] (hf : CommandShape f) (hg : CommandShape g) :
    CommandShape fun rest => if p then f rest else g rest := by
  by_cases h : p
  · simpa only [h, if_true] using hf
  · simpa only [h, if_false] using hg

theorem CommandShape.ok (i : Instr) : CommandShape fun rest => .ok (i, rest) :=
  .inl ⟨.ok i, fun _ => rfl⟩

/-- All that the command decoder does with the bytes after the first. -/
theorem decodeCommand_shape (b : Byte) : CommandShape (decodeCommand b) := by
  unfold decodeCommand
  repeat (first
    | refine CommandShape.ite _ (CommandShape.ok _) ?_
    | refine CommandShape.ite _ (.inr (.inl fun _ => rfl)) ?_
    | refine CommandShape.ite _ (.inr (.inr fun _ => rfl)) ?_)
  exact .inl ⟨.error _, fun _ => rfl⟩

theorem decodeOperand_ok {rest : List Byte} {w : Nat} {m : String} {f : Nat → Instr} {i : Instr}
    {more : List Byte} (h : decodeOperand rest w m f = .ok (i, more)) :
    ∃ o, rest = o :: more ∧ i = f o.toNat := by
  unfold decodeOperand at h
  split at h
  · cases h
  · split at h
    · cases h
      exact ⟨_, rfl, rfl⟩
    · cases h

end Sys2Proof
end

