-- ==== Sys2Proof/Laws/State.lean ====
section
/-!
SUPPORT. One lemma per field per named update of the state, each true by unfolding the update once, so
that later proofs never unfold a record update.
-/

namespace Sys2Proof.Machine

-- respond

@[simp] theorem respond_params (st : Status) (d : Byte) (s : State) : (respond st d s).params = s.params := rfl
@[simp] theorem respond_constructed (st : Status) (d : Byte) (s : State) : (respond st d s).constructed = s.constructed := rfl
@[simp] theorem respond_hasCs (st : Status) (d : Byte) (s : State) : (respond st d s).hasCs = s.hasCs := rfl
@[simp] theorem respond_hasRst (st : Status) (d : Byte) (s : State) : (respond st d s).hasRst = s.hasRst := rfl
@[simp] theorem respond_life (st : Status) (d : Byte) (s : State) : (respond st d s).life = s.life := rfl
@[simp] theorem respond_rot (st : Status) (d : Byte) (s : State) : (respond st d s).rot = s.rot := rfl
@[simp] theorem respond_inv (st : Status) (d : Byte) (s : State) : (respond st d s).inv = s.inv := rfl
@[simp] theorem respond_ev (st : Status) (d : Byte) (s : State) : (respond st d s).ev = s.ev := rfl
@[simp] theorem respond_rr (st : Status) (d : Byte) (s : State) : (respond st d s).rr = s.rr := rfl
@[simp] theorem respond_csLvl (st : Status) (d : Byte) (s : State) : (respond st d s).csLvl = s.csLvl := rfl
@[simp] theorem respond_dcLvl (st : Status) (d : Byte) (s : State) : (respond st d s).dcLvl = s.dcLvl := rfl
@[simp] theorem respond_rstLvl (st : Status) (d : Byte) (s : State) : (respond st d s).rstLvl = s.rstLvl := rfl
@[simp] theorem respond_buf (st : Status) (d : Byte) (s : State) : (respond st d s).buf = s.buf := rfl
@[simp] theorem respond_seq (st : Status) (d : Byte) (s : State) : (respond st d s).seq = .idle := rfl
@[simp] theorem respond_status (st : Status) (d : Byte) (s : State) : (respond st d s).status = st := rfl
@[simp] theorem respond_rdata (st : Status) (d : Byte) (s : State) : (respond st d s).rdata = d := rfl
@[simp] theorem respond_requests (st : Status) (d : Byte) (s : State) : (respond st d s).requests = s.requests := rfl
@[simp] theorem respond_failures (st : Status) (d : Byte) (s : State) : (respond st d s).failures = s.failures := rfl
@[simp] theorem respond_trace (st : Status) (d : Byte) (s : State) : (respond st d s).trace = s.trace := rfl

-- raiseError

@[simp] theorem raiseError_params (e : Status) (s : State) : (raiseError e s).params = s.params := rfl
@[simp] theorem raiseError_constructed (e : Status) (s : State) : (raiseError e s).constructed = s.constructed := rfl
@[simp] theorem raiseError_hasCs (e : Status) (s : State) : (raiseError e s).hasCs = s.hasCs := rfl
@[simp] theorem raiseError_hasRst (e : Status) (s : State) : (raiseError e s).hasRst = s.hasRst := rfl
@[simp] theorem raiseError_life (e : Status) (s : State) : (raiseError e s).life = s.life := rfl
@[simp] theorem raiseError_rot (e : Status) (s : State) : (raiseError e s).rot = s.rot := rfl
@[simp] theorem raiseError_inv (e : Status) (s : State) : (raiseError e s).inv = s.inv := rfl
@[simp] theorem raiseError_ev (e : Status) (s : State) : (raiseError e s).ev = s.ev := rfl
@[simp] theorem raiseError_rr (e : Status) (s : State) : (raiseError e s).rr = s.rr := rfl
@[simp] theorem raiseError_csLvl (e : Status) (s : State) : (raiseError e s).csLvl = s.csLvl := rfl
@[simp] theorem raiseError_dcLvl (e : Status) (s : State) : (raiseError e s).dcLvl = s.dcLvl := rfl
@[simp] theorem raiseError_rstLvl (e : Status) (s : State) : (raiseError e s).rstLvl = s.rstLvl := rfl
@[simp] theorem raiseError_buf (e : Status) (s : State) : (raiseError e s).buf = s.buf := rfl
@[simp] theorem raiseError_seq (e : Status) (s : State) : (raiseError e s).seq = .idle := rfl
@[simp] theorem raiseError_status (e : Status) (s : State) : (raiseError e s).status = e := rfl
@[simp] theorem raiseError_rdata (e : Status) (s : State) : (raiseError e s).rdata = 0x00 := rfl
@[simp] theorem raiseError_requests (e : Status) (s : State) : (raiseError e s).requests = s.requests := rfl
@[simp] theorem raiseError_failures (e : Status) (s : State) : (raiseError e s).failures = s.failures := rfl
@[simp] theorem raiseError_trace (e : Status) (s : State) : (raiseError e s).trace = s.trace := rfl

-- transportFailure

@[simp] theorem transportFailure_params (b : Bool) (s : State) : (transportFailure b s).params = s.params := rfl
@[simp] theorem transportFailure_constructed (b : Bool) (s : State) : (transportFailure b s).constructed = (s.constructed && !b) := rfl
@[simp] theorem transportFailure_hasCs (b : Bool) (s : State) : (transportFailure b s).hasCs = s.hasCs := rfl
@[simp] theorem transportFailure_hasRst (b : Bool) (s : State) : (transportFailure b s).hasRst = s.hasRst := rfl
@[simp] theorem transportFailure_life (b : Bool) (s : State) : (transportFailure b s).life = s.life := rfl
@[simp] theorem transportFailure_rot (b : Bool) (s : State) : (transportFailure b s).rot = s.rot := rfl
@[simp] theorem transportFailure_inv (b : Bool) (s : State) : (transportFailure b s).inv = s.inv := rfl
@[simp] theorem transportFailure_ev (b : Bool) (s : State) : (transportFailure b s).ev = s.ev := rfl
@[simp] theorem transportFailure_rr (b : Bool) (s : State) : (transportFailure b s).rr = s.rr := rfl
@[simp] theorem transportFailure_csLvl (b : Bool) (s : State) : (transportFailure b s).csLvl = s.csLvl := rfl
@[simp] theorem transportFailure_dcLvl (b : Bool) (s : State) : (transportFailure b s).dcLvl = s.dcLvl := rfl
@[simp] theorem transportFailure_rstLvl (b : Bool) (s : State) : (transportFailure b s).rstLvl = s.rstLvl := rfl
@[simp] theorem transportFailure_buf (b : Bool) (s : State) : (transportFailure b s).buf = s.buf := rfl
@[simp] theorem transportFailure_seq (b : Bool) (s : State) : (transportFailure b s).seq = .idle := rfl
@[simp] theorem transportFailure_status (b : Bool) (s : State) : (transportFailure b s).status = .transportError := rfl
@[simp] theorem transportFailure_rdata (b : Bool) (s : State) : (transportFailure b s).rdata = 0x00 := rfl
@[simp] theorem transportFailure_requests (b : Bool) (s : State) : (transportFailure b s).requests = s.requests := rfl
@[simp] theorem transportFailure_failures (b : Bool) (s : State) : (transportFailure b s).failures = s.failures := rfl
@[simp] theorem transportFailure_trace (b : Bool) (s : State) : (transportFailure b s).trace = s.trace := rfl

-- record

@[simp] theorem record_params (e : Event) (fs : List Failure) (s : State) : (record e fs s).params = s.params := rfl
@[simp] theorem record_constructed (e : Event) (fs : List Failure) (s : State) : (record e fs s).constructed = s.constructed := rfl
@[simp] theorem record_hasCs (e : Event) (fs : List Failure) (s : State) : (record e fs s).hasCs = s.hasCs := rfl
@[simp] theorem record_hasRst (e : Event) (fs : List Failure) (s : State) : (record e fs s).hasRst = s.hasRst := rfl
@[simp] theorem record_life (e : Event) (fs : List Failure) (s : State) : (record e fs s).life = s.life := rfl
@[simp] theorem record_rot (e : Event) (fs : List Failure) (s : State) : (record e fs s).rot = s.rot := rfl
@[simp] theorem record_inv (e : Event) (fs : List Failure) (s : State) : (record e fs s).inv = s.inv := rfl
@[simp] theorem record_ev (e : Event) (fs : List Failure) (s : State) : (record e fs s).ev = s.ev := rfl
@[simp] theorem record_rr (e : Event) (fs : List Failure) (s : State) : (record e fs s).rr = s.rr := rfl
@[simp] theorem record_csLvl (e : Event) (fs : List Failure) (s : State) : (record e fs s).csLvl = s.csLvl := rfl
@[simp] theorem record_dcLvl (e : Event) (fs : List Failure) (s : State) : (record e fs s).dcLvl = s.dcLvl := rfl
@[simp] theorem record_rstLvl (e : Event) (fs : List Failure) (s : State) : (record e fs s).rstLvl = s.rstLvl := rfl
@[simp] theorem record_buf (e : Event) (fs : List Failure) (s : State) : (record e fs s).buf = s.buf := rfl
@[simp] theorem record_seq (e : Event) (fs : List Failure) (s : State) : (record e fs s).seq = s.seq := rfl
@[simp] theorem record_status (e : Event) (fs : List Failure) (s : State) : (record e fs s).status = s.status := rfl
@[simp] theorem record_rdata (e : Event) (fs : List Failure) (s : State) : (record e fs s).rdata = s.rdata := rfl
@[simp] theorem record_requests (e : Event) (fs : List Failure) (s : State) : (record e fs s).requests = s.requests := rfl
@[simp] theorem record_failures (e : Event) (fs : List Failure) (s : State) : (record e fs s).failures = fs := rfl
@[simp] theorem record_trace (e : Event) (fs : List Failure) (s : State) : (record e fs s).trace = s.trace ++ [e] := rfl

-- setLevel: the level registers follow their own line

@[simp] theorem setLevel_params (l : Line) (v : Level) (s : State) : (setLevel l v s).params = s.params := by cases l <;> rfl
@[simp] theorem setLevel_constructed (l : Line) (v : Level) (s : State) : (setLevel l v s).constructed = s.constructed := by cases l <;> rfl
@[simp] theorem setLevel_hasCs (l : Line) (v : Level) (s : State) : (setLevel l v s).hasCs = s.hasCs := by cases l <;> rfl
@[simp] theorem setLevel_hasRst (l : Line) (v : Level) (s : State) : (setLevel l v s).hasRst = s.hasRst := by cases l <;> rfl
@[simp] theorem setLevel_life (l : Line) (v : Level) (s : State) : (setLevel l v s).life = s.life := by cases l <;> rfl
@[simp] theorem setLevel_rot (l : Line) (v : Level) (s : State) : (setLevel l v s).rot = s.rot := by cases l <;> rfl
@[simp] theorem setLevel_inv (l : Line) (v : Level) (s : State) : (setLevel l v s).inv = s.inv := by cases l <;> rfl
@[simp] theorem setLevel_ev (l : Line) (v : Level) (s : State) : (setLevel l v s).ev = s.ev := by cases l <;> rfl
@[simp] theorem setLevel_rr (l : Line) (v : Level) (s : State) : (setLevel l v s).rr = s.rr := by cases l <;> rfl
@[simp] theorem setLevel_csLvl (l : Line) (v : Level) (s : State) : (setLevel l v s).csLvl = if l = .cs then v else s.csLvl := by cases l <;> rfl
@[simp] theorem setLevel_dcLvl (l : Line) (v : Level) (s : State) : (setLevel l v s).dcLvl = if l = .dc then v else s.dcLvl := by cases l <;> rfl
@[simp] theorem setLevel_rstLvl (l : Line) (v : Level) (s : State) : (setLevel l v s).rstLvl = if l = .rst then v else s.rstLvl := by cases l <;> rfl
@[simp] theorem setLevel_buf (l : Line) (v : Level) (s : State) : (setLevel l v s).buf = s.buf := by cases l <;> rfl
@[simp] theorem setLevel_seq (l : Line) (v : Level) (s : State) : (setLevel l v s).seq = s.seq := by cases l <;> rfl
@[simp] theorem setLevel_status (l : Line) (v : Level) (s : State) : (setLevel l v s).status = s.status := by cases l <;> rfl
@[simp] theorem setLevel_rdata (l : Line) (v : Level) (s : State) : (setLevel l v s).rdata = s.rdata := by cases l <;> rfl
@[simp] theorem setLevel_requests (l : Line) (v : Level) (s : State) : (setLevel l v s).requests = s.requests := by cases l <;> rfl
@[simp] theorem setLevel_failures (l : Line) (v : Level) (s : State) : (setLevel l v s).failures = s.failures := by cases l <;> rfl
@[simp] theorem setLevel_trace (l : Line) (v : Level) (s : State) : (setLevel l v s).trace = s.trace := by cases l <;> rfl

-- writeReg: only LIFE and the DeviceConfig registers change

@[simp] theorem writeReg_params (w : RegWrite) (s : State) : (writeReg w s).params = s.params := by cases w <;> rfl
@[simp] theorem writeReg_constructed (w : RegWrite) (s : State) : (writeReg w s).constructed = s.constructed := by cases w <;> rfl
@[simp] theorem writeReg_hasCs (w : RegWrite) (s : State) : (writeReg w s).hasCs = s.hasCs := by cases w <;> rfl
@[simp] theorem writeReg_hasRst (w : RegWrite) (s : State) : (writeReg w s).hasRst = s.hasRst := by cases w <;> rfl
@[simp] theorem writeReg_csLvl (w : RegWrite) (s : State) : (writeReg w s).csLvl = s.csLvl := by cases w <;> rfl
@[simp] theorem writeReg_dcLvl (w : RegWrite) (s : State) : (writeReg w s).dcLvl = s.dcLvl := by cases w <;> rfl
@[simp] theorem writeReg_rstLvl (w : RegWrite) (s : State) : (writeReg w s).rstLvl = s.rstLvl := by cases w <;> rfl
@[simp] theorem writeReg_buf (w : RegWrite) (s : State) : (writeReg w s).buf = s.buf := by cases w <;> rfl
@[simp] theorem writeReg_seq (w : RegWrite) (s : State) : (writeReg w s).seq = s.seq := by cases w <;> rfl
@[simp] theorem writeReg_status (w : RegWrite) (s : State) : (writeReg w s).status = s.status := by cases w <;> rfl
@[simp] theorem writeReg_rdata (w : RegWrite) (s : State) : (writeReg w s).rdata = s.rdata := by cases w <;> rfl
@[simp] theorem writeReg_requests (w : RegWrite) (s : State) : (writeReg w s).requests = s.requests := by cases w <;> rfl
@[simp] theorem writeReg_failures (w : RegWrite) (s : State) : (writeReg w s).failures = s.failures := by cases w <;> rfl
@[simp] theorem writeReg_trace (w : RegWrite) (s : State) : (writeReg w s).trace = s.trace := by cases w <;> rfl

@[simp] theorem writeReg_life_eq (l : Life) (s : State) :
    writeReg (.life l) s = { s with life := l } := rfl
@[simp] theorem writeReg_rot_eq (r : Rotation) (s : State) :
    writeReg (.rot r) s = { s with rot := r } := rfl
@[simp] theorem writeReg_inv_eq (b : Bool) (s : State) :
    writeReg (.inv b) s = { s with inv := b } := rfl
@[simp] theorem writeReg_ev_eq (v : BitVec 6) (s : State) :
    writeReg (.ev v) s = { s with ev := v } := rfl
@[simp] theorem writeReg_rr_eq (v : BitVec 3) (s : State) :
    writeReg (.rr v) s = { s with rr := v } := rfl

-- popRequest

@[simp] theorem popRequest_params (rest : List Word) (s : State) : (popRequest rest s).params = s.params := rfl
@[simp] theorem popRequest_constructed (rest : List Word) (s : State) : (popRequest rest s).constructed = s.constructed := rfl
@[simp] theorem popRequest_hasCs (rest : List Word) (s : State) : (popRequest rest s).hasCs = s.hasCs := rfl
@[simp] theorem popRequest_hasRst (rest : List Word) (s : State) : (popRequest rest s).hasRst = s.hasRst := rfl
@[simp] theorem popRequest_life (rest : List Word) (s : State) : (popRequest rest s).life = s.life := rfl
@[simp] theorem popRequest_rot (rest : List Word) (s : State) : (popRequest rest s).rot = s.rot := rfl
@[simp] theorem popRequest_inv (rest : List Word) (s : State) : (popRequest rest s).inv = s.inv := rfl
@[simp] theorem popRequest_ev (rest : List Word) (s : State) : (popRequest rest s).ev = s.ev := rfl
@[simp] theorem popRequest_rr (rest : List Word) (s : State) : (popRequest rest s).rr = s.rr := rfl
@[simp] theorem popRequest_csLvl (rest : List Word) (s : State) : (popRequest rest s).csLvl = s.csLvl := rfl
@[simp] theorem popRequest_dcLvl (rest : List Word) (s : State) : (popRequest rest s).dcLvl = s.dcLvl := rfl
@[simp] theorem popRequest_rstLvl (rest : List Word) (s : State) : (popRequest rest s).rstLvl = s.rstLvl := rfl
@[simp] theorem popRequest_buf (rest : List Word) (s : State) : (popRequest rest s).buf = s.buf := rfl
@[simp] theorem popRequest_seq (rest : List Word) (s : State) : (popRequest rest s).seq = s.seq := rfl
@[simp] theorem popRequest_status (rest : List Word) (s : State) : (popRequest rest s).status = s.status := rfl
@[simp] theorem popRequest_rdata (rest : List Word) (s : State) : (popRequest rest s).rdata = s.rdata := rfl
@[simp] theorem popRequest_requests (rest : List Word) (s : State) : (popRequest rest s).requests = rest := rfl
@[simp] theorem popRequest_failures (rest : List Word) (s : State) : (popRequest rest s).failures = s.failures := rfl
@[simp] theorem popRequest_trace (rest : List Word) (s : State) : (popRequest rest s).trace = s.trace := rfl

-- beginOp

@[simp] theorem beginOp_params (b : Bool) (acts : List Action) (s : State) : (beginOp b acts s).params = s.params := rfl
@[simp] theorem beginOp_constructed (b : Bool) (acts : List Action) (s : State) : (beginOp b acts s).constructed = s.constructed := rfl
@[simp] theorem beginOp_hasCs (b : Bool) (acts : List Action) (s : State) : (beginOp b acts s).hasCs = s.hasCs := rfl
@[simp] theorem beginOp_hasRst (b : Bool) (acts : List Action) (s : State) : (beginOp b acts s).hasRst = s.hasRst := rfl
@[simp] theorem beginOp_life (b : Bool) (acts : List Action) (s : State) : (beginOp b acts s).life = s.life := rfl
@[simp] theorem beginOp_rot (b : Bool) (acts : List Action) (s : State) : (beginOp b acts s).rot = s.rot := rfl
@[simp] theorem beginOp_inv (b : Bool) (acts : List Action) (s : State) : (beginOp b acts s).inv = s.inv := rfl
@[simp] theorem beginOp_ev (b : Bool) (acts : List Action) (s : State) : (beginOp b acts s).ev = s.ev := rfl
@[simp] theorem beginOp_rr (b : Bool) (acts : List Action) (s : State) : (beginOp b acts s).rr = s.rr := rfl
@[simp] theorem beginOp_csLvl (b : Bool) (acts : List Action) (s : State) : (beginOp b acts s).csLvl = s.csLvl := rfl
@[simp] theorem beginOp_dcLvl (b : Bool) (acts : List Action) (s : State) : (beginOp b acts s).dcLvl = s.dcLvl := rfl
@[simp] theorem beginOp_rstLvl (b : Bool) (acts : List Action) (s : State) : (beginOp b acts s).rstLvl = s.rstLvl := rfl
@[simp] theorem beginOp_buf (b : Bool) (acts : List Action) (s : State) : (beginOp b acts s).buf = s.buf := rfl
@[simp] theorem beginOp_seq (b : Bool) (acts : List Action) (s : State) : (beginOp b acts s).seq = .busy acts b := rfl
@[simp] theorem beginOp_status (b : Bool) (acts : List Action) (s : State) : (beginOp b acts s).status = s.status := rfl
@[simp] theorem beginOp_rdata (b : Bool) (acts : List Action) (s : State) : (beginOp b acts s).rdata = s.rdata := rfl
@[simp] theorem beginOp_requests (b : Bool) (acts : List Action) (s : State) : (beginOp b acts s).requests = s.requests := rfl
@[simp] theorem beginOp_failures (b : Bool) (acts : List Action) (s : State) : (beginOp b acts s).failures = s.failures := rfl
@[simp] theorem beginOp_trace (b : Bool) (acts : List Action) (s : State) : (beginOp b acts s).trace = s.trace := rfl

end Sys2Proof.Machine
end

