-- ==== Sys2Proof/Laws/Emission.lean ====
section
/-!
SUPPORT. What the shared operations can do: one emission, a list of actions, an operation, a part of
one. Later proofs cite these and do not unfold the operations.
-/

namespace Sys2Proof.Machine

-- The collaborators' draws

@[simp] theorem emissions_nil : emissions [] = 0 := rfl

theorem emissions_cons (e : Event) (es : List Event) :
    emissions (e :: es) = (if canFail e then 1 else 0) + emissions es := by
  unfold emissions
  cases h : canFail e <;> simp [h]
  omega

@[simp] theorem emissions_setLine (l : Line) (v : Level) (es : List Event) :
    emissions (.setLine l v :: es) = emissions es + 1 := rfl

@[simp] theorem emissions_write (bs : List Byte) (es : List Event) :
    emissions (.write bs :: es) = emissions es + 1 := rfl

@[simp] theorem emissions_delay (n : Nat) (es : List Event) :
    emissions (.delay n :: es) = emissions es := rfl

@[simp] theorem emissions_append (es fs : List Event) :
    emissions (es ++ fs) = emissions es + emissions fs := by
  simp [emissions]

@[simp] theorem afterQuiet_zero (fs : List Failure) : afterQuiet 0 fs = fs := by
  cases fs <;> rfl

theorem afterQuiet_afterQuiet (m n : Nat) (fs : List Failure) :
    afterQuiet n (afterQuiet m fs) = afterQuiet (m + n) fs := by
  cases fs <;> simp [afterQuiet, Nat.sub_sub]

theorem quietFor_add (m n : Nat) (fs : List Failure) (h : quietFor (m + n) fs = true) :
    quietFor m fs = true ∧ quietFor n (afterQuiet m fs) = true := by
  cases fs with
  | nil => exact ⟨rfl, rfl⟩
  | cons f rest =>
    simp only [quietFor, afterQuiet, decide_eq_true_eq] at h ⊢
    omega

theorem quietFor_mono {m n : Nat} (h : m ≤ n) (fs : List Failure) (hq : quietFor n fs = true) :
    quietFor m fs = true := by
  cases fs with
  | nil => rfl
  | cons f rest =>
    simp only [quietFor, decide_eq_true_eq] at hq ⊢
    omega

/-- An accepted draw. -/
theorem draw_quiet (fs : List Failure) (h : quietFor 1 fs = true) :
    draw fs = (none, afterQuiet 1 fs) := by
  cases fs with
  | nil => rfl
  | cons f rest =>
    simp only [quietFor, decide_eq_true_eq] at h
    unfold draw
    cases hf : f.after with
    | zero => omega
    | succ n => simp [afterQuiet, hf]

-- The level of one line after a list of accepted events

theorem levelAfter_append (l : Line) (v : Level) (es fs : List Event) :
    levelAfter l v (es ++ fs) = levelAfter l (levelAfter l v es) fs := by
  induction es generalizing v with
  | nil => rfl
  | cons e es ih => cases e <;> simp [levelAfter, ih]

@[simp] theorem delivered_nil (s : State) : delivered [] s = s := by
  simp [delivered, levelAfter]

theorem delivered_append (es fs : List Event) (s : State) :
    delivered (es ++ fs) s = delivered fs (delivered es s) := by
  simp [delivered, levelAfter_append, afterQuiet_afterQuiet]

/-- An accepted emission. -/
theorem emit_quiet (e : Event) (s : State) (h : quietFor (emissions [e]) s.failures = true) :
    emit e s = .accepted (delivered [e] s) := by
  cases e with
  | setLine l v =>
    have hd := draw_quiet s.failures h
    cases l <;> simp [emit, hd, delivered, levelAfter, setLevel, record]
  | write bs =>
    have hd := draw_quiet s.failures h
    simp [emit, hd, delivered, levelAfter, record]
  | delay n => simp [emit, delivered, levelAfter, record]

-- Lists of actions

theorem performAll_append (as bs : List Action) (s : State) :
    performAll (as ++ bs) s =
      match performAll as s with
      | .accepted t => performAll bs t
      | .failed t => .failed t := by
  induction as generalizing s with
  | nil => rfl
  | cons a as ih =>
    simp only [List.cons_append, performAll]
    cases perform a s with
    | accepted t => exact ih t
    | failed t => rfl

/-- A list of events whose emissions are all accepted. -/
theorem performAll_emits_quiet (es : List Event) (s : State)
    (h : quietFor (emissions es) s.failures = true) :
    performAll (emits es) s = .accepted (delivered es s) := by
  induction es generalizing s with
  | nil => simp [emits, performAll]
  | cons e es ih =>
    rw [show e :: es = [e] ++ es from rfl, emissions_append] at h
    obtain ⟨h1, h2⟩ := quietFor_add _ _ _ h
    have : performAll (emits (e :: es)) s = performAll (emits es) (delivered [e] s) := by
      simp [emits, performAll, perform, emit_quiet e s h1]
    rw [this, ih (delivered [e] s) h2, show e :: es = [e] ++ es from rfl, delivered_append]

/-- The register writes among actions, applied in order. -/
def writeAll : List RegWrite → State → State
  | [], s => s
  | w :: ws, s => writeAll ws (writeReg w s)

theorem performAll_writes (ws : List RegWrite) (s : State) :
    performAll (ws.map Action.write) s = .accepted (writeAll ws s) := by
  induction ws generalizing s with
  | nil => rfl
  | cons w ws ih => exact ih (writeReg w s)

/-- An operation that emits its events and then writes its registers, all accepted. -/
theorem runOp_quiet (b : Bool) (es : List Event) (ws : List RegWrite) (s : State)
    (h : quietFor (emissions es) s.failures = true) :
    runOp b (emits es ++ ws.map Action.write) s = respond .ok 0x00 (writeAll ws (delivered es s)) := by
  simp [runOp, performAll_append, performAll_emits_quiet es s h, performAll_writes, conclude]

-- What a list of actions leaves alone, whatever the collaborators do

/-- The state a sending ended in, accepted or failed. -/
def Sent.state : Sent → State
  | .accepted s => s
  | .failed s => s

@[simp] theorem eventsOf_emits (es : List Event) : eventsOf (emits es) = es := by
  induction es with
  | nil => rfl
  | cons e es ih => simpa [emits, eventsOf] using ih

theorem eventsOf_append (as bs : List Action) :
    eventsOf (as ++ bs) = eventsOf as ++ eventsOf bs := by
  induction as with
  | nil => rfl
  | cons a as ih => cases a <;> simp [eventsOf, ih]

/-- One emission, whatever becomes of it: the event is the trace's last, and only the lines and the
collaborators' draws may change besides. -/
theorem emit_cases (e : Event) (s : State) :
    ∃ c d r fs,
      (emit e s).state =
        { s with trace := s.trace ++ [e], csLvl := c, dcLvl := d, rstLvl := r, failures := fs } := by
  cases e with
  | setLine l v =>
    cases hd : draw s.failures with
    | mk o fs => cases o <;> cases l <;> simp [emit, hd, Sent.state, setLevel, record]
  | write bs =>
    cases hd : draw s.failures with
    | mk o fs => cases o <;> simp [emit, hd, Sent.state, record]
  | delay n => simp [emit, Sent.state, record]

/-- A list of events, whatever becomes of them: some of them, from the front on, are in the trace, all
of them if none failed; only the lines and the collaborators' draws may change besides. -/
theorem performAll_emits_cases (es : List Event) (s : State) :
    ∃ n c d r fs,
      (performAll (emits es) s).state =
        { s with
          trace := s.trace ++ es.take n, csLvl := c, dcLvl := d, rstLvl := r, failures := fs } ∧
      (∀ t, performAll (emits es) s = .accepted t → es.take n = es) := by
  induction es generalizing s with
  | nil => exact ⟨0, s.csLvl, s.dcLvl, s.rstLvl, s.failures, by simp [emits, performAll, Sent.state]⟩
  | cons e es ih =>
    obtain ⟨c, d, r, fs, he⟩ := emit_cases e s
    have hstep : performAll (emits (e :: es)) s =
        match emit e s with
        | .accepted t => performAll (emits es) t
        | .failed t => .failed t := rfl
    cases hs : emit e s with
    | accepted t =>
      rw [hs] at he hstep
      obtain ⟨n, c', d', r', fs', h1, h2⟩ := ih t
      simp only [Sent.state] at he
      refine ⟨n + 1, c', d', r', fs', ?_, ?_⟩
      · rw [hstep]
        simp only
        rw [h1, he]
        simp
      · intro u hu
        rw [hstep] at hu
        simp [h2 u hu]
    | failed t =>
      rw [hs] at he hstep
      simp only [Sent.state] at he
      refine ⟨1, c, d, r, fs, ?_, ?_⟩
      · rw [hstep]
        simp [Sent.state, he]
      · intro u hu
        rw [hstep] at hu
        cases hu

/-- An operation that emits its events and then writes its registers, whatever the collaborators do:
OK with every event in the trace and every register written, or TRANSPORT_ERROR with some of the
events in the trace and no register written. -/
theorem runOp_cases (b : Bool) (es : List Event) (ws : List RegWrite) (s : State) :
    ∃ n c d r fs,
      (es.take n = es ∧
        runOp b (emits es ++ ws.map Action.write) s = respond .ok 0x00 (writeAll ws
          { s with trace := s.trace ++ es, csLvl := c, dcLvl := d, rstLvl := r, failures := fs })) ∨
      runOp b (emits es ++ ws.map Action.write) s = transportFailure b
        { s with
          trace := s.trace ++ es.take n, csLvl := c, dcLvl := d, rstLvl := r, failures := fs } := by
  obtain ⟨n, c, d, r, fs, h1, h2⟩ := performAll_emits_cases es s
  refine ⟨n, c, d, r, fs, ?_⟩
  cases hp : performAll (emits es) s with
  | accepted t =>
    left
    rw [hp] at h1
    simp only [Sent.state] at h1
    refine ⟨h2 t hp, ?_⟩
    simp [runOp, performAll_append, hp, performAll_writes, conclude, h1, h2 t hp]
  | failed t =>
    right
    rw [hp] at h1
    simp only [Sent.state] at h1
    simp [runOp, performAll_append, hp, conclude, h1]

/-- A list of events in which the collaborators' next failure falls: it stops with the failing event. -/
theorem performAll_emits_fails (es : List Event) (s : State) (f : Failure) (rest : List Failure)
    (hf : s.failures = f :: rest) (h : f.after < emissions es) :
    ∃ t, performAll (emits es) s = .failed t ∧ t.failures = rest := by
  induction es generalizing s f with
  | nil => simp at h
  | cons e es ih =>
    have hstep : performAll (emits (e :: es)) s =
        match emit e s with
        | .accepted t => performAll (emits es) t
        | .failed t => .failed t := rfl
    rw [emissions_cons] at h
    have key : ∀ fs, draw s.failures = (none, fs) → fs = afterQuiet 1 s.failures ∧ 0 < f.after := by
      intro fs hd
      rw [hf] at hd ⊢
      unfold draw at hd
      cases ha : f.after with
      | zero => simp [ha] at hd
      | succ n => simp [ha] at hd; simp [afterQuiet, ha, hd]
    have key2 : ∀ lvl fs, draw s.failures = (some lvl, fs) → fs = rest := by
      intro lvl fs hd
      rw [hf] at hd
      unfold draw at hd
      cases ha : f.after with
      | zero => simp [ha] at hd; exact hd.2.symm
      | succ n => simp [ha] at hd
    have next : ∀ t, t.failures = afterQuiet 1 s.failures → 0 < f.after → canFail e = true →
        ∃ u, performAll (emits es) t = .failed u ∧ u.failures = rest := by
      intro t ht hpos hc
      refine ih t { f with after := f.after - 1 } ?_ ?_
      · rw [ht, hf]
        rfl
      · simp only [hc, if_true] at h
        simp only
        omega
    cases e with
    | setLine l v =>
      cases hd : draw s.failures with
      | mk o fs =>
        cases o with
        | none =>
          obtain ⟨h1, h2⟩ := key fs hd
          rw [hstep]
          simp only [emit, hd]
          exact next _ (by simp [h1]) h2 rfl
        | some lvl =>
          rw [hstep]
          exact ⟨_, by simp only [emit, hd]; rfl, by simp [key2 lvl fs hd]⟩
    | write bs =>
      cases hd : draw s.failures with
      | mk o fs =>
        cases o with
        | none =>
          obtain ⟨h1, h2⟩ := key fs hd
          rw [hstep]
          simp only [emit, hd]
          exact next _ (by simp [h1]) h2 rfl
        | some lvl =>
          rw [hstep]
          exact ⟨_, by simp only [emit, hd]; rfl, by simp [key2 lvl fs hd]⟩
    | delay n =>
      rw [hstep]
      simp only [emit]
      exact ih _ f (by simpa using hf) (by simpa [canFail] using h)

-- The wrappers of the meanings

theorem onPort_idle (s t : State) (h : s.seq = .idle) : onPort s t = .next t := by
  simp [onPort, h]

theorem onBlock_ready (s t : State) (h : s.ready) : onBlock s t = .next t := by
  simp [onBlock, h.1, h.2]

theorem onPort_next {s t u : State} (h : onPort s t = .next u) : s.seq = .idle ∧ u = t := by
  unfold onPort at h
  split at h
  · rename_i hs
    cases h
    exact ⟨hs, rfl⟩
  · cases h

theorem onBlock_next {s t u : State} (h : onBlock s t = .next u) : s.ready ∧ u = t := by
  unfold onBlock at h
  split at h
  · rename_i hs
    split at h
    · rename_i hc
      cases h
      exact ⟨⟨hs, hc⟩, rfl⟩
    · cases h
  · cases h

theorem onWire_next {acts : List Action} {s u : State} (h : onWire acts s = .next u) :
    s.constructed = true ∧ u = runPart acts s := by
  unfold onWire at h
  split at h
  · rename_i hc
    cases h
    exact ⟨hc, rfl⟩
  · cases h

end Sys2Proof.Machine
end

