-- ==== Sys2Proof/Laws/Frames.lean ====
section
/-!
SUPPORT. The frames: how many emissions they hold, which levels they leave, what the controller sees of
them; and each operation's list as events followed by register writes.
-/

namespace Sys2Proof.Machine

-- Lists of command frames

@[simp] theorem cmdFrames_nil (c : Bool) : cmdFrames c [] = [] := rfl

theorem cmdFrames_cons (c : Bool) (b : Byte) (bs : List Byte) :
    cmdFrames c (b :: bs) = frame c .low [b] ++ cmdFrames c bs := rfl

theorem cmdFrames_append (c : Bool) (as bs : List Byte) :
    cmdFrames c (as ++ bs) = cmdFrames c as ++ cmdFrames c bs := by
  simp [cmdFrames]

@[simp] theorem emissions_frame (c : Bool) (dc : Level) (bs : List Byte) :
    emissions (frame c dc bs) = if c then 4 else 2 := by
  cases c <;> rfl

@[simp] theorem emissions_cmdFrames (c : Bool) (bs : List Byte) :
    emissions (cmdFrames c bs) = bs.length * if c then 4 else 2 := by
  induction bs with
  | nil => simp
  | cons b bs ih => rw [cmdFrames_cons, emissions_append, ih, emissions_frame, List.length_cons]; ring

@[simp] theorem length_frame (c : Bool) (dc : Level) (bs : List Byte) :
    (frame c dc bs).length = if c then 4 else 2 := by
  cases c <;> rfl

@[simp] theorem length_cmdFrames (c : Bool) (bs : List Byte) :
    (cmdFrames c bs).length = bs.length * if c then 4 else 2 := by
  induction bs with
  | nil => simp
  | cons b bs ih => rw [cmdFrames_cons, List.length_append, ih, length_frame, List.length_cons]; ring

-- The levels they leave

@[simp] theorem csAfter_frame (c : Bool) (v dc : Level) (bs : List Byte) :
    levelAfter .cs v (frame c dc bs) = if c then .high else v := by
  cases c <;> rfl

@[simp] theorem dcAfter_frame (c : Bool) (v dc : Level) (bs : List Byte) :
    levelAfter .dc v (frame c dc bs) = dc := by
  cases c <;> rfl

@[simp] theorem rstAfter_frame (c : Bool) (v dc : Level) (bs : List Byte) :
    levelAfter .rst v (frame c dc bs) = v := by
  cases c <;> rfl

theorem csAfter_cmdFrames (c : Bool) (v : Level) (bs : List Byte) (h : bs ≠ []) :
    levelAfter .cs v (cmdFrames c bs) = if c then .high else v := by
  induction bs generalizing v with
  | nil => exact absurd rfl h
  | cons b bs ih =>
    rw [cmdFrames_cons, levelAfter_append, csAfter_frame]
    cases bs with
    | nil => rfl
    | cons b' bs' =>
      rw [ih _ (List.cons_ne_nil _ _)]
      cases c <;> rfl

theorem dcAfter_cmdFrames (c : Bool) (v : Level) (bs : List Byte) (h : bs ≠ []) :
    levelAfter .dc v (cmdFrames c bs) = .low := by
  induction bs generalizing v with
  | nil => exact absurd rfl h
  | cons b bs ih =>
    rw [cmdFrames_cons, levelAfter_append, dcAfter_frame]
    cases bs with
    | nil => rfl
    | cons b' bs' => exact ih _ (List.cons_ne_nil _ _)

@[simp] theorem rstAfter_cmdFrames (c : Bool) (v : Level) (bs : List Byte) :
    levelAfter .rst v (cmdFrames c bs) = v := by
  induction bs with
  | nil => rfl
  | cons b bs ih => rw [cmdFrames_cons, levelAfter_append, rstAfter_frame, ih]

/-- The state after accepted command frames. -/
theorem delivered_cmdFrames (c : Bool) (bs : List Byte) (s : State) (h : bs ≠ []) :
    delivered (cmdFrames c bs) s =
      { s with
        trace := s.trace ++ cmdFrames c bs,
        failures := afterQuiet (bs.length * if c then 4 else 2) s.failures,
        csLvl := if c then .high else s.csLvl, dcLvl := .low } := by
  simp [delivered, csAfter_cmdFrames c _ bs h, dcAfter_cmdFrames c _ bs h]

-- What the controller sees

theorem wireView_append_frame (c : Bool) (dc0 dc : Level) (bs : List Byte) (es : List Event) :
    wireView dc0 (frame c dc bs ++ es) = bs.map (fun b => (dc, b)) ++ wireView dc es := by
  cases c <;> rfl

theorem wireView_append_cmdFrames (c : Bool) (dc0 : Level) (b : Byte) (bs : List Byte)
    (es : List Event) :
    wireView dc0 (cmdFrames c (b :: bs) ++ es) =
      (b :: bs).map (fun x => (Level.low, x)) ++ wireView .low es := by
  induction bs generalizing dc0 b with
  | nil => rw [cmdFrames_cons, cmdFrames_nil, List.append_nil, wireView_append_frame]
  | cons b' bs ih =>
    rw [cmdFrames_cons, List.append_assoc, wireView_append_frame, ih]
    rfl

-- The operations' lists

theorem resetBody_split (p : Params) (c r : Bool) :
    resetBody p c r = emits (resetEvents p c r) ++ [RegWrite.life .resetting].map Action.write := rfl

/-- The register writes of `InitBody`, in their order. -/
def initRegWrites (r : Rotation) (inv : Bool) (con rat : Nat) : List RegWrite :=
  [.rot r, .inv inv, .ev (maskContrast con), .rr (maskRatio rat), .life .initialized]

theorem initBody_split (p : Params) (c : Bool) (r : Rotation) (inv : Bool) (con rat : Nat) :
    initBody p c r inv con rat =
      emits (initEvents p c r inv con rat) ++ (initRegWrites r inv con rat).map Action.write := rfl

theorem initSeq_ne_nil (p : Params) (r : Rotation) (inv : Bool) (ev : BitVec 6) (rr : BitVec 3) :
    initSeq p r inv ev rr ≠ [] := by
  simp [initSeq, encDisplay]

end Sys2Proof.Machine
end

