-- ==== Sys2Proof/Laws/Memory.lean ====
section
/-!
SUPPORT. The Pixel Buffer's memory: a read after a write, and the canonical form that every operation
keeps.
-/

namespace Sys2Proof.Machine

@[simp] theorem read_nil (i : Nat) : Memory.read [] i = unlistedByte := rfl

theorem read_cons_cell (a : Nat) (v : Byte) (rest : Memory) (i : Nat) :
    Memory.read ((a, v) :: rest) i = if a = i then v else Memory.read rest i := rfl

@[simp] theorem wfFrom_nil (lo : Nat) : Memory.wfFrom lo [] = true := rfl

theorem wfFrom_cons_cell (lo a : Nat) (v : Byte) (rest : Memory) :
    Memory.wfFrom lo ((a, v) :: rest) = true ↔
      lo ≤ a ∧ a < bufLen ∧ v ≠ unlistedByte ∧ Memory.wfFrom (a + 1) rest = true := by
  simp [Memory.wfFrom, and_assoc]

/-- A lower bound may be lowered. -/
theorem wfFrom_mono {lo lo' : Nat} (h : lo' ≤ lo) (m : Memory) (hm : Memory.wfFrom lo m = true) :
    Memory.wfFrom lo' m = true := by
  cases m with
  | nil => rfl
  | cons c rest =>
    obtain ⟨a, v⟩ := c
    rw [wfFrom_cons_cell] at hm ⊢
    exact ⟨h.trans hm.1, hm.2⟩

/-- Below its bound a canonical list reads as unlisted. -/
theorem read_below_bound (m : Memory) (lo i : Nat) (hm : Memory.wfFrom lo m = true) (hi : i < lo) :
    Memory.read m i = unlistedByte := by
  induction m generalizing lo with
  | nil => rfl
  | cons c rest ih =>
    obtain ⟨a, v⟩ := c
    rw [wfFrom_cons_cell] at hm
    rw [read_cons_cell, if_neg (by omega)]
    exact ih (a + 1) hm.2.2.2 (by omega)

/-- From `BUF_LEN` on a canonical list reads as unlisted. -/
theorem read_past_end (m : Memory) (lo i : Nat) (hm : Memory.wfFrom lo m = true) (hi : bufLen ≤ i) :
    Memory.read m i = unlistedByte := by
  induction m generalizing lo with
  | nil => rfl
  | cons c rest ih =>
    obtain ⟨a, v⟩ := c
    rw [wfFrom_cons_cell] at hm
    rw [read_cons_cell, if_neg (by omega)]
    exact ih (a + 1) hm.2.2.2

theorem read_cons (i : Nat) (v : Byte) (rest : Memory) (j : Nat)
    (h : Memory.read rest i = unlistedByte) :
    Memory.read (Memory.cons i v rest) j = if j = i then v else Memory.read rest j := by
  unfold Memory.cons
  by_cases hv : v = unlistedByte
  · by_cases hj : j = i
    · simp [hv, hj, h]
    · simp [hv, hj]
  · by_cases hj : j = i
    · simp [hv, hj, read_cons_cell]
    · simp [hv, hj, read_cons_cell, Ne.symm hj]

/-- What a byte reads as after a write (spec/20_memory.md R55). -/
theorem read_write (m : Memory) (lo i : Nat) (v : Byte) (hm : Memory.wfFrom lo m = true) (j : Nat) :
    Memory.read (Memory.write m i v) j = if j = i then v else Memory.read m j := by
  induction m generalizing lo with
  | nil => exact read_cons i v [] j rfl
  | cons c rest ih =>
    obtain ⟨a, w⟩ := c
    have hc := (wfFrom_cons_cell lo a w rest).1 hm
    unfold Memory.write
    split
    · rename_i hlt
      refine read_cons i v _ j ?_
      exact read_below_bound ((a, w) :: rest) a i
        ((wfFrom_cons_cell a a w rest).2 ⟨Nat.le_refl a, hc.2⟩) hlt
    · split
      · rename_i _ heq
        subst heq
        rw [read_cons i v rest j (read_below_bound rest (i + 1) i hc.2.2.2 (by omega)),
          read_cons_cell]
        by_cases hj : j = i
        · simp [hj]
        · simp [hj, Ne.symm hj]
      · rename_i _ hne
        rw [read_cons_cell, ih (a + 1) hc.2.2.2, read_cons_cell]
        by_cases hj : j = i
        · subst hj
          simp [Ne.symm hne]
        · simp [hj]

theorem wfFrom_cons (lo i : Nat) (v : Byte) (rest : Memory) (hlo : lo ≤ i) (hi : i < bufLen)
    (hr : Memory.wfFrom (i + 1) rest = true) : Memory.wfFrom lo (Memory.cons i v rest) = true := by
  unfold Memory.cons
  split
  · exact wfFrom_mono (by omega) rest hr
  · rename_i hv
    exact (wfFrom_cons_cell lo i v rest).2 ⟨hlo, hi, hv, hr⟩

theorem wfFrom_write (m : Memory) (lo i : Nat) (v : Byte) (hm : Memory.wfFrom lo m = true)
    (hlo : lo ≤ i) (hi : i < bufLen) : Memory.wfFrom lo (Memory.write m i v) = true := by
  induction m generalizing lo with
  | nil => exact wfFrom_cons lo i v [] hlo hi rfl
  | cons c rest ih =>
    obtain ⟨a, w⟩ := c
    have hc := (wfFrom_cons_cell lo a w rest).1 hm
    unfold Memory.write
    split
    · rename_i hlt
      exact wfFrom_cons lo i v _ hlo hi ((wfFrom_cons_cell (i + 1) a w rest).2 ⟨hlt, hc.2⟩)
    · split
      · rename_i _ heq
        subst heq
        exact wfFrom_cons lo i v rest hlo hi hc.2.2.2
      · exact (wfFrom_cons_cell lo a w _).2
          ⟨hc.1, hc.2.1, hc.2.2.1, ih (a + 1) hc.2.2.2 (by omega)⟩

/-- A write inside the buffer keeps the canonical form. -/
theorem wf_write (m : Memory) (i : Nat) (v : Byte) (hm : Memory.wf m = true) (hi : i < bufLen) :
    Memory.wf (Memory.write m i v) = true :=
  wfFrom_write m 0 i v hm (Nat.zero_le i) hi

/-- A run of equal cells from `lo` on is canonical. -/
theorem wfFrom_run (v : Byte) (hv : v ≠ unlistedByte) (n lo : Nat) (h : lo + n ≤ bufLen) :
    Memory.wfFrom lo ((List.range' lo n).map fun i => (i, v)) = true := by
  induction n generalizing lo with
  | zero => rfl
  | succ n ih =>
    rw [List.range'_succ, List.map_cons, wfFrom_cons_cell]
    exact ⟨Nat.le_refl lo, by omega, hv, ih (lo + 1) (by omega)⟩

/-- A filled buffer is canonical. -/
theorem wf_filled (v : Byte) : Memory.wf (filled v) = true := by
  unfold filled Memory.wf
  split
  · rfl
  · rename_i hv
    rw [List.range_eq_range']
    exact wfFrom_run v hv bufLen 0 (by omega)

theorem read_run (v : Byte) (n lo i : Nat) :
    Memory.read ((List.range' lo n).map fun j => (j, v)) i
      = if lo ≤ i ∧ i < lo + n then v else unlistedByte := by
  induction n generalizing lo with
  | zero => simp
  | succ n ih =>
    rw [List.range'_succ, List.map_cons, read_cons_cell, ih]
    by_cases h : lo = i
    · subst h
      simp
    · have : (lo + 1 ≤ i ∧ i < lo + 1 + n) ↔ (lo ≤ i ∧ i < lo + (n + 1)) := by omega
      simp only [if_neg h, this]

/-- Every byte of a filled buffer. -/
theorem read_filled (v : Byte) (i : Nat) (hi : i < bufLen) : Memory.read (filled v) i = v := by
  unfold filled
  split
  · rename_i hv
    rw [read_nil, hv]
  · rw [List.range_eq_range', read_run]
    simp [hi]

/-- Canonical buffers that read the same are the same (equal memories are equal data). -/
theorem eq_of_read_eq (m m' : Memory) (lo : Nat) (hm : Memory.wfFrom lo m = true)
    (hm' : Memory.wfFrom lo m' = true) (h : ∀ i, Memory.read m i = Memory.read m' i) : m = m' := by
  induction m generalizing m' lo with
  | nil =>
    cases m' with
    | nil => rfl
    | cons c rest =>
      obtain ⟨a, v⟩ := c
      have hc := (wfFrom_cons_cell lo a v rest).1 hm'
      have := h a
      rw [read_nil, read_cons_cell, if_pos rfl] at this
      exact absurd this.symm hc.2.2.1
  | cons c rest ih =>
    obtain ⟨a, v⟩ := c
    have hc := (wfFrom_cons_cell lo a v rest).1 hm
    cases m' with
    | nil =>
      have := h a
      rw [read_nil, read_cons_cell, if_pos rfl] at this
      exact absurd this hc.2.2.1
    | cons c' rest' =>
      obtain ⟨b, w⟩ := c'
      have hc' := (wfFrom_cons_cell lo b w rest').1 hm'
      have ha : Memory.read ((a, v) :: rest) a = v := by simp [read_cons_cell]
      have hb : Memory.read ((b, w) :: rest') b = w := by simp [read_cons_cell]
      have hab : a = b := by
        by_contra hne
        rcases Nat.lt_or_gt_of_ne hne with hlt | hlt
        · have : Memory.read ((b, w) :: rest') a = unlistedByte :=
            read_below_bound _ b a ((wfFrom_cons_cell b b w rest').2 ⟨Nat.le_refl b, hc'.2⟩) hlt
          exact hc.2.2.1 (by rw [← ha, h a, this])
        · have : Memory.read ((a, v) :: rest) b = unlistedByte :=
            read_below_bound _ a b ((wfFrom_cons_cell a a v rest).2 ⟨Nat.le_refl a, hc.2⟩) hlt
          exact hc'.2.2.1 (by rw [← hb, ← h b, this])
      subst hab
      have hvw : v = w := by rw [← ha, h a, hb]
      subst hvw
      have hrest : ∀ i, Memory.read rest i = Memory.read rest' i := by
        intro i
        by_cases hi : i < a + 1
        · rw [read_below_bound rest (a + 1) i hc.2.2.2 hi,
            read_below_bound rest' (a + 1) i hc'.2.2.2 hi]
        · have := h i
          rwa [read_cons_cell, read_cons_cell, if_neg (by omega), if_neg (by omega)] at this
      rw [ih rest' (a + 1) hc.2.2.2 hc'.2.2.2 hrest]

end Sys2Proof.Machine
end

