-- ==== Sys2Proof/Laws/Operations.lean ====
section
/-!
SUPPORT. What each host operation can do, said once: it is one of the shared operations applied to its
own events and register writes, or an error of its checks. Later proofs cite these and do not unfold the
meanings.
-/

namespace Sys2Proof.Machine

theorem maskContrast_idem (v : Nat) : maskContrast (maskContrast v).toNat = maskContrast v := by
  apply BitVec.eq_of_toNat_eq
  simp [maskContrast]

theorem encContrast_masked (p : Params) (v : Nat) :
    encContrast p (maskContrast v).toNat = encContrast p v := by
  unfold encContrast
  rw [maskContrast_idem]

/-- The register writes of an operation that emits, in the order of its rule. -/
def opWrites : Instr → List RegWrite
  | .reset => [.life .resetting]
  | .initialise rot inv con rat =>
    match legalRotation rot with
    | some r => initRegWrites r inv con rat
    | none => []
  | .setContrast v => [.ev (maskContrast v)]
  | .setInverted b => [.inv b]
  | .setRotation rot =>
    match legalRotation rot with
    | some r => [.rot r]
    | none => []
  | .setSleeping b => [.life (sleepLife b)]
  | _ => []

/-- A host operation other than construct and the Pixel Buffer's: the emitting operations on a block. -/
def emitting : Instr → Bool
  | .reset => true
  | .initialise _ _ _ _ => true
  | .present => true
  | .setContrast _ => true
  | .setInverted _ => true
  | .setRotation _ => true
  | .setSleeping _ => true
  | _ => false

/-- An emitting operation whose checks pass is its events and then its register writes. -/
theorem exec_emitting (i : Instr) (s : State) (es : List Event) (hr : s.ready)
    (hi : emitting i = true) (hp : planned i s = some es) :
    exec i s = .next (runOp false (emits es ++ (opWrites i).map Action.write) s) := by
  cases i <;> simp only [emitting, reduceCtorEq] at hi
  case reset =>
    cases hp
    exact onBlock_ready _ _ hr
  case initialise rot inv con rat =>
    simp only [planned] at hp
    split at hp
    · rename_i hl
      cases hrot : legalRotation rot with
      | none => simp [hrot] at hp
      | some r =>
        simp only [hrot, Option.map_some, Option.some.injEq] at hp
        simp only [exec, execInitialise, hrot, hl, if_true, onBlock_ready _ _ hr, opWrites, ← hp]
        rfl
    · cases hp
  case present =>
    simp only [planned] at hp
    split at hp
    · rename_i hl
      cases hp
      simp [exec, execPresent, hl, onBlock_ready _ _ hr, opWrites]
    · cases hp
  case setContrast v =>
    simp only [planned] at hp
    split at hp
    · rename_i hl
      cases hp
      simp [exec, execSetContrast, hl, onBlock_ready _ _ hr, opWrites, encContrast_masked]
    · cases hp
  case setInverted b =>
    simp only [planned] at hp
    split at hp
    · rename_i hl
      cases hp
      simp [exec, execSetInverted, hl, onBlock_ready _ _ hr, opWrites]
    · cases hp
  case setRotation rot =>
    simp only [planned] at hp
    split at hp
    · rename_i hl
      cases hrot : legalRotation rot with
      | none => simp [hrot] at hp
      | some r =>
        simp only [hrot, Option.map_some, Option.some.injEq] at hp
        simp [exec, execSetRotation, hrot, hl, onBlock_ready _ _ hr, opWrites, ← hp]
    · cases hp
  case setSleeping b =>
    simp only [planned] at hp
    split at hp
    · rename_i hl
      cases hp
      simp [exec, execSetSleeping, hl, onBlock_ready _ _ hr, opWrites]
    · cases hp

/-- An emitting operation whose checks do not pass is an error of a check. -/
theorem exec_emitting_error (i : Instr) (s : State) (hr : s.ready) (hi : emitting i = true)
    (hp : planned i s = none) :
    ∃ e, (e = .configError ∨ e = .lifecycleError) ∧ exec i s = .next (raiseError e s) := by
  cases i <;> simp only [emitting, reduceCtorEq] at hi
  case reset => cases hp
  case initialise rot inv con rat =>
    cases hrot : legalRotation rot with
    | none => exact ⟨.configError, .inl rfl, by simp [exec, execInitialise, hrot, onBlock_ready _ _ hr]⟩
    | some r =>
      by_cases hl : s.life = .resetting
      · simp [planned, hl, hrot] at hp
      · exact ⟨.lifecycleError, .inr rfl, by
          simp [exec, execInitialise, hrot, hl, onBlock_ready _ _ hr]⟩
  case present =>
    by_cases hl : runtime s.life = true
    · simp [planned, hl] at hp
    · exact ⟨.lifecycleError, .inr rfl, by simp [exec, execPresent, hl, onBlock_ready _ _ hr]⟩
  case setContrast v =>
    by_cases hl : runtime s.life = true
    · simp [planned, hl] at hp
    · exact ⟨.lifecycleError, .inr rfl, by simp [exec, execSetContrast, hl, onBlock_ready _ _ hr]⟩
  case setInverted b =>
    by_cases hl : runtime s.life = true
    · simp [planned, hl] at hp
    · exact ⟨.lifecycleError, .inr rfl, by simp [exec, execSetInverted, hl, onBlock_ready _ _ hr]⟩
  case setRotation rot =>
    cases hrot : legalRotation rot with
    | none => exact ⟨.configError, .inl rfl, by simp [exec, execSetRotation, hrot, onBlock_ready _ _ hr]⟩
    | some r =>
      by_cases hl : runtime s.life = true
      · simp [planned, hl, hrot] at hp
      · exact ⟨.lifecycleError, .inr rfl, by
          simp [exec, execSetRotation, hrot, hl, onBlock_ready _ _ hr]⟩
  case setSleeping b =>
    by_cases hl : runtime s.life = true
    · simp [planned, hl] at hp
    · exact ⟨.lifecycleError, .inr rfl, by simp [exec, execSetSleeping, hl, onBlock_ready _ _ hr]⟩

/-- A next state of an emitting operation comes from a block that is ready. -/
theorem emitting_next_ready {i : Instr} {s t : State} (hi : emitting i = true)
    (h : exec i s = .next t) : s.ready := by
  cases i <;> simp only [emitting, reduceCtorEq] at hi <;> exact (onBlock_next h).1

/-- All that an emitting operation can do: an error of a check; OK with all its events in the trace and
all its registers written; or TRANSPORT_ERROR with some of its events in the trace and no register of
its own written. -/
theorem emitting_cases {i : Instr} {s t : State} (hi : emitting i = true) (h : exec i s = .next t) :
    (∃ e, (e = .configError ∨ e = .lifecycleError) ∧ t = raiseError e s ∧ planned i s = none) ∨
    ∃ es n c d r fs, planned i s = some es ∧
      ((es.take n = es ∧ t = respond .ok 0x00 (writeAll (opWrites i)
          { s with trace := s.trace ++ es, csLvl := c, dcLvl := d, rstLvl := r, failures := fs })) ∨
        t = transportFailure false
          { s with
            trace := s.trace ++ es.take n, csLvl := c, dcLvl := d, rstLvl := r, failures := fs }) := by
  have hr := emitting_next_ready hi h
  cases hp : planned i s with
  | none =>
    left
    obtain ⟨e, he, hx⟩ := exec_emitting_error i s hr hi hp
    rw [hx] at h
    cases h
    exact ⟨e, he, rfl, rfl⟩
  | some es =>
    right
    rw [exec_emitting i s es hr hi hp] at h
    cases h
    obtain ⟨n, c, d, r, fs, hc⟩ := runOp_cases false es (opWrites i) s
    exact ⟨es, n, c, d, r, fs, rfl, hc⟩

/-- All that a Pixel Buffer operation can do: ILLEGAL, or OK with a byte and a buffer; it emits nothing
and writes nothing else (spec/44_pixel_buffer.md R150). -/
theorem pixel_cases {i : Instr} {s t : State}
    (hi : (∃ x y c, i = .setPixel x y c) ∨ (∃ x y, i = .getPixel x y) ∨ (∃ c, i = .fill c) ∨
      (∃ n v, i = .bufWrite n v) ∨ ∃ n, i = .bufRead n)
    (h : exec i s = .next t) :
    s.ready ∧ (t = raiseError .illegal s ∨ ∃ d m, t = respond .ok d { s with buf := m }) := by
  rcases hi with ⟨x, y, c, rfl⟩ | ⟨x, y, rfl⟩ | ⟨c, rfl⟩ | ⟨n, v, rfl⟩ | ⟨n, rfl⟩
  · obtain ⟨hr, rfl⟩ := onBlock_next h
    refine ⟨hr, .inr ⟨0x00, if onDisplay x y then putPixel s.buf x y c else s.buf, ?_⟩⟩
    split <;> rfl
  · obtain ⟨hr, rfl⟩ := onBlock_next h
    refine ⟨hr, ?_⟩
    split
    · exact .inr ⟨_, s.buf, rfl⟩
    · exact .inl rfl
  · obtain ⟨hr, rfl⟩ := onBlock_next h
    exact ⟨hr, .inr ⟨0x00, _, rfl⟩⟩
  · obtain ⟨hr, rfl⟩ := onBlock_next h
    refine ⟨hr, ?_⟩
    split
    · exact .inr ⟨0x00, _, rfl⟩
    · exact .inl rfl
  · obtain ⟨hr, rfl⟩ := onBlock_next h
    refine ⟨hr, ?_⟩
    split
    · exact .inr ⟨_, s.buf, rfl⟩
    · exact .inl rfl

/-- The buffer a Pixel Buffer operation leaves is canonical if it was. -/
theorem pixel_keeps_wf {i : Instr} {s t : State}
    (hi : (∃ x y c, i = .setPixel x y c) ∨ (∃ x y, i = .getPixel x y) ∨ (∃ c, i = .fill c) ∨
      (∃ n v, i = .bufWrite n v) ∨ ∃ n, i = .bufRead n)
    (h : exec i s = .next t) (hw : Memory.wf s.buf = true) : Memory.wf t.buf = true := by
  rcases hi with ⟨x, y, c, rfl⟩ | ⟨x, y, rfl⟩ | ⟨c, rfl⟩ | ⟨n, v, rfl⟩ | ⟨n, rfl⟩
  · obtain ⟨_, rfl⟩ := onBlock_next h
    rw [respond_buf]
    split
    · rename_i hd
      refine wf_write _ _ _ hw ?_
      have hx : x < 128 ∧ y < 64 := by
        have h2 := hd
        unfold onDisplay at h2
        rw [Bool.and_eq_true] at h2
        exact ⟨of_decide_eq_true h2.1, of_decide_eq_true h2.2⟩
      simp only [pixelIndex, pageOf, bufLen, dispW, dispH]
      omega
    · exact hw
  · obtain ⟨_, rfl⟩ := onBlock_next h
    split <;> exact hw
  · obtain ⟨_, rfl⟩ := onBlock_next h
    exact wf_filled _
  · obtain ⟨_, rfl⟩ := onBlock_next h
    split
    · rename_i hn
      exact wf_write _ _ _ hw hn
    · exact hw
  · obtain ⟨_, rfl⟩ := onBlock_next h
    split <;> exact hw

/-- Construct's list after its first writes: its events, with `LIFE <- Resetting` before the
initialization sequence's, then its register writes. -/
theorem constructBody_split (p : Params) (hcs hrst : Bool) (r : Rotation) (inv : Bool) (con rat : Nat) :
    constructBody p hcs hrst r inv con rat =
      (emits (idleLevels hcs hrst ++ resetEvents p hcs hrst)
          ++ [RegWrite.life .resetting].map Action.write)
        ++ (emits (initEvents p hcs r inv con rat)
          ++ (initRegWrites r inv con rat).map Action.write) := by
  simp [constructBody, resetBody, initBody, emits, initWrites, initRegWrites]

/-- All that construct can do. The last case is a construct whose emission failed: it leaves no block. -/
theorem construct_cases {hcs hrst : Bool} {rot : Nat} {inv : Bool} {con rat : Nat} {s t : State}
    (h : exec (.construct hcs hrst rot inv con rat) s = .next t) :
    s.seq = .idle ∧
    (t = raiseError .configError s ∨
      ∃ r es, legalRotation rot = some r ∧
        ((∃ c d k fs, t = respond .ok 0x00 (writeAll (initRegWrites r inv con rat)
            { newBlock hcs hrst r inv con rat s with
              trace := s.trace ++ es, life := .resetting, csLvl := c, dcLvl := d, rstLvl := k,
              failures := fs })) ∨
          ∃ l c d k fs, t = transportFailure true
            { newBlock hcs hrst r inv con rat s with
              trace := s.trace ++ es, life := l, csLvl := c, dcLvl := d, rstLvl := k,
              failures := fs })) := by
  obtain ⟨hs, rfl⟩ := onPort_next h
  refine ⟨hs, ?_⟩
  cases hrot : legalRotation rot with
  | none => exact .inl rfl
  | some r =>
    right
    simp only
    generalize hN : newBlock hcs hrst r inv con rat s = u
    have htr : u.trace = s.trace := by rw [← hN]; rfl
    obtain ⟨n, c, d, k, fs, h1, h2⟩ :=
      performAll_emits_cases (idleLevels hcs hrst ++ resetEvents s.params hcs hrst) u
    unfold runOp
    rw [constructBody_split, performAll_append, performAll_append]
    cases hp : performAll (emits (idleLevels hcs hrst ++ resetEvents s.params hcs hrst)) u with
    | failed v =>
      rw [hp] at h1
      simp only [Sent.state] at h1
      refine ⟨r, (idleLevels hcs hrst ++ resetEvents s.params hcs hrst).take n, rfl,
        .inr ⟨u.life, c, d, k, fs, ?_⟩⟩
      simp only [conclude, h1, htr]
      subst hN
      rfl
    | accepted v =>
      rw [hp] at h1
      simp only [Sent.state, h2 v hp] at h1
      simp only [performAll_writes, writeAll, writeReg_life_eq]
      rw [performAll_append]
      obtain ⟨n', c', d', k', fs', h1', h2'⟩ :=
        performAll_emits_cases (initEvents s.params hcs r inv con rat) { v with life := .resetting }
      cases hp' : performAll (emits (initEvents s.params hcs r inv con rat))
          { v with life := .resetting } with
      | failed w =>
        rw [hp'] at h1'
        simp only [Sent.state] at h1'
        refine ⟨r, (idleLevels hcs hrst ++ resetEvents s.params hcs hrst)
          ++ (initEvents s.params hcs r inv con rat).take n', rfl, .inr ⟨.resetting, c', d', k', fs', ?_⟩⟩
        simp only [conclude, h1', h1, htr, List.append_assoc]
        subst hN
        rfl
      | accepted w =>
        rw [hp'] at h1'
        simp only [Sent.state, h2' w hp'] at h1'
        refine ⟨r, (idleLevels hcs hrst ++ resetEvents s.params hcs hrst)
          ++ initEvents s.params hcs r inv con rat, rfl, .inl ⟨c', d', k', fs', ?_⟩⟩
        simp only [performAll_writes, conclude, h1', h1, htr, List.append_assoc]
        subst hN
        rfl

/-- A part of an operation that emits its events: all of them sent, or the operation ended with
TRANSPORT_ERROR. -/
theorem runPart_cases (es : List Event) (s : State) :
    ∃ n c d r fs,
      (es.take n = es ∧ runPart (emits es) s =
        { s with trace := s.trace ++ es, csLvl := c, dcLvl := d, rstLvl := r, failures := fs }) ∨
      ∃ b, runPart (emits es) s = transportFailure b
        { s with
          trace := s.trace ++ es.take n, csLvl := c, dcLvl := d, rstLvl := r, failures := fs } := by
  obtain ⟨n, c, d, r, fs, h1, h2⟩ := performAll_emits_cases es s
  refine ⟨n, c, d, r, fs, ?_⟩
  cases hp : performAll (emits es) s with
  | accepted t =>
    left
    rw [hp] at h1
    simp only [Sent.state] at h1
    refine ⟨h2 t hp, ?_⟩
    simp [runPart, hp, h1, h2 t hp]
  | failed t =>
    right
    rw [hp] at h1
    simp only [Sent.state] at h1
    cases hs : s.seq with
    | idle => exact ⟨false, by simp [runPart, hp, hs, h1]⟩
    | busy acts b => exact ⟨b, by simp [runPart, hp, hs, h1]⟩

/-- An instruction of the controller layer is the sending of its bytes. -/
theorem exec_wire {i : Instr} {s : State} {dc : Level} {bs : List Byte}
    (h : wireBytes s.params i = some (dc, bs)) :
    exec i s = onWire (emits (bs.flatMap fun b => frame s.hasCs dc [b])) s := by
  cases i <;> simp only [wireBytes, Option.some.injEq, Prod.mk.injEq, reduceCtorEq] at h <;>
    obtain ⟨rfl, rfl⟩ := h
  all_goals first
    | rfl
    | simp [exec, execData]

end Sys2Proof.Machine
end

