-- ==== Sys2Proof/Laws/Levels.lean ====
section
/-!
SUPPORT. Emissions that fail, and the lines an operation does not drive.
-/

namespace Sys2Proof.Machine

/-- The collaborators' next failure, wherever it falls among the events. -/
theorem performAll_failing (pre : List Event) (e : Event) (post : List Event) (f : Failure)
    (rest : List Failure) (s : State) (hc : canFail e = true) (hf : s.failures = f :: rest)
    (ha : f.after = emissions pre) :
    performAll (emits (pre ++ e :: post)) s = .failed (failedAt pre e f rest s) := by
  have hq : quietFor (emissions pre) s.failures = true := by simp [hf, quietFor, ha]
  have hs : emits (pre ++ e :: post) = emits pre ++ (Action.emit e :: emits post) := by simp [emits]
  rw [hs, performAll_append, performAll_emits_quiet pre s hq]
  have hfail : (delivered pre s).failures = { f with after := 0 } :: rest := by
    simp [delivered, hf, afterQuiet, ha]
  simp only [performAll, perform]
  cases e with
  | delay n => simp [canFail] at hc
  | setLine l v => simp [emit, hfail, draw, failedAt]
  | write bs => simp [emit, hfail, draw, failedAt]

/-- The emission that the collaborators' next failure falls on. -/
theorem emit_failing (e : Event) (f : Failure) (rest : List Failure) (s : State) (hc : canFail e = true)
    (hf : s.failures = f :: rest) (ha : f.after = 0) : emit e s = .failed (failedAt [] e f rest s) := by
  cases e with
  | delay n => simp [canFail] at hc
  | setLine l v => simp [emit, hf, draw, ha, failedAt]
  | write bs => simp [emit, hf, draw, ha, failedAt]

/-- The event among a list's that a failure falls on. -/
theorem exists_failing (es : List Event) (n : Nat) (h : n < emissions es) :
    ∃ pre e post, es = pre ++ e :: post ∧ canFail e = true ∧ n = emissions pre := by
  induction es generalizing n with
  | nil => simp at h
  | cons e es ih =>
    rw [emissions_cons] at h
    by_cases h0 : canFail e = true ∧ n = 0
    · exact ⟨[], e, es, rfl, h0.1, by simp [h0.2]⟩
    · obtain ⟨pre, e', post, rfl, hc, hn⟩ := ih (n - if canFail e then 1 else 0) (by
        cases hf : canFail e <;> simp [hf] at h h0 ⊢ <;> omega)
      refine ⟨e :: pre, e', post, rfl, hc, ?_⟩
      rw [emissions_cons]
      cases hf : canFail e <;> simp [hf] at h0 hn ⊢
      all_goals omega

/-- The collaborators' next failure among the events of a list that also writes registers: the list ends
with the failing event. -/
theorem performAll_fails (acts : List Action) (pre : List Event) (e : Event) (post : List Event)
    (f : Failure) (rest : List Failure) (s : State) (he : eventsOf acts = pre ++ e :: post)
    (hc : canFail e = true) (hf : s.failures = f :: rest) (ha : f.after = emissions pre) :
    ∃ t, performAll acts s = .failed t ∧ t.failures = rest ∧ t.trace = s.trace ++ pre ++ [e] := by
  induction acts generalizing pre f s with
  | nil => simp [eventsOf] at he
  | cons a acts ih =>
    cases a with
    | write w =>
      obtain ⟨t, h1, h2, h3⟩ := ih pre f (writeReg w s) he (by simpa using hf) ha
      exact ⟨t, h1, h2, by simpa using h3⟩
    | emit e' =>
      cases pre with
      | nil =>
        obtain ⟨rfl, -⟩ : e' = e ∧ eventsOf acts = post := by simpa [eventsOf] using he
        refine ⟨failedAt [] e' f rest s, ?_, ?_, ?_⟩
        · simp [performAll, perform, emit_failing e' f rest s hc hf ha]
        all_goals cases e' <;> simp [failedAt, canFail] at hc ⊢
      | cons p pre =>
        obtain ⟨rfl, he'⟩ : e' = p ∧ eventsOf acts = pre ++ e :: post := by simpa [eventsOf] using he
        have hq : quietFor (emissions [e']) s.failures = true := by
          rw [hf, quietFor, ha, show e' :: pre = [e'] ++ pre from rfl, emissions_append]
          simp
        obtain ⟨t, h1, h2, h3⟩ := ih pre { f with after := f.after - emissions [e'] }
          (delivered [e'] s) he' (by simp [delivered, hf, afterQuiet]) (by
            rw [show e' :: pre = [e'] ++ pre from rfl, emissions_append] at ha
            simp only [ha, Nat.add_sub_cancel_left])
        refine ⟨t, ?_, h2, ?_⟩
        · simpa [performAll, perform, emit_quiet e' s hq] using h1
        · simpa [delivered] using h3

theorem failedAt_seq (pre : List Event) (e : Event) (f : Failure) (rest : List Failure) (s : State) :
    (failedAt pre e f rest s).seq = s.seq := by
  cases e <;> simp [failedAt, delivered]

theorem failedAt_constructed (pre : List Event) (e : Event) (f : Failure) (rest : List Failure)
    (s : State) : (failedAt pre e f rest s).constructed = s.constructed := by
  cases e <;> simp [failedAt, delivered]

/-- An instruction that is a run of its events and then its register writes stops at a failure. -/
theorem stopsAtFailure_of_run (i : Instr) (es : List Event) (ws : List RegWrite) (s : State)
    (hr : s.ready)
    (h : exec i s = .next (runOp false (emits es ++ ws.map Action.write) s)) :
    stopsAtFailure i es s := by
  intro pre e post f rest he hc hf ha
  rw [h, he]
  simp only [runOp, performAll_append, performAll_failing pre e post f rest s hc hf ha, conclude,
    transportFailure, raiseError, respond, failedAt_constructed, hr.2]
  congr 1
  have h1 := failedAt_seq pre e f rest s
  rw [hr.1] at h1
  simp [h1]

/-- The level of a line. -/
def levelOf (l : Line) (s : State) : Level :=
  match l with
  | .cs => s.csLvl
  | .dc => s.dcLvl
  | .rst => s.rstLvl

theorem emit_level (l : Line) (e : Event) (s : State) (h : ∀ v, e ≠ .setLine l v) :
    levelOf l (emit e s).state = levelOf l s := by
  cases e with
  | delay n => cases l <;> rfl
  | write bs =>
    unfold emit
    cases hd : draw s.failures with
    | mk o fs => cases o <;> cases l <;> simp [Sent.state, levelOf]
  | setLine l' v =>
    have hl : l' ≠ l := by
      rintro rfl
      exact h v rfl
    unfold emit
    cases hd : draw s.failures with
    | mk o fs => cases o <;> cases l <;> cases l' <;> simp_all [Sent.state, levelOf]

/-- A line that no event drives keeps its level, whatever the collaborators do. -/
theorem performAll_level (l : Line) (es : List Event) (s : State) (h : ∀ v, .setLine l v ∉ es) :
    levelOf l (performAll (emits es) s).state = levelOf l s := by
  induction es generalizing s with
  | nil => rfl
  | cons e es ih =>
    have h1 := emit_level l e s fun v hv => h v (by simp [hv])
    show levelOf l (performAll (Action.emit e :: emits es) s).state = _
    simp only [performAll, perform]
    cases he : emit e s with
    | accepted t =>
      rw [he] at h1
      simp only [Sent.state] at h1 ⊢
      rw [← h1]
      exact ih t fun v hv => h v (by simp [hv])
    | failed t =>
      rw [he] at h1
      exact h1

theorem writeAll_level (l : Line) (ws : List RegWrite) (s : State) :
    levelOf l (writeAll ws s) = levelOf l s := by
  induction ws generalizing s with
  | nil => rfl
  | cons w ws ih =>
    rw [show writeAll (w :: ws) s = writeAll ws (writeReg w s) from rfl, ih]
    cases l <;> simp [levelOf]

theorem runOp_level (l : Line) (b : Bool) (es : List Event) (ws : List RegWrite) (s : State)
    (h : ∀ v, .setLine l v ∉ es) :
    levelOf l (runOp b (emits es ++ ws.map Action.write) s) = levelOf l s := by
  have h1 := performAll_level l es s h
  unfold runOp
  rw [performAll_append]
  cases hp : performAll (emits es) s with
  | accepted t =>
    rw [hp] at h1
    simp only [Sent.state] at h1
    simp only [performAll_writes, conclude]
    rw [← h1, ← writeAll_level l ws t]
    cases l <;> rfl
  | failed t =>
    rw [hp] at h1
    simp only [Sent.state] at h1
    rw [← h1]
    cases l <;> rfl

theorem runPart_level (l : Line) (es : List Event) (s : State) (h : ∀ v, .setLine l v ∉ es) :
    levelOf l (runPart (emits es) s) = levelOf l s := by
  have h1 := performAll_level l es s h
  unfold runPart
  cases hp : performAll (emits es) s with
  | accepted t =>
    rw [hp] at h1
    exact h1
  | failed t =>
    rw [hp] at h1
    simp only [Sent.state] at h1
    rw [← h1]
    simp only
    split <;> cases l <;> rfl

theorem rst_not_in_cmdFrames (c : Bool) (bs : List Byte) (v : Level) :
    Event.setLine .rst v ∉ cmdFrames c bs := by
  cases c <;> simp [cmdFrames, frame]

theorem cs_not_in_cmdFrames (bs : List Byte) (v : Level) :
    Event.setLine .cs v ∉ cmdFrames false bs := by
  simp [cmdFrames, frame]

/-- Only reset drives the reset line, and only with one (spec/42_lifecycle.md R124). -/
theorem plan_rst {i : Instr} {s : State} {es : List Event} (he : emitting i = true)
    (hp : planned i s = some es) (hi : i ≠ .reset ∨ s.hasRst = false) :
    ∀ v, Event.setLine .rst v ∉ es := by
  intro v
  cases i <;> simp [emitting] at he <;> simp [planned] at hp
  case reset =>
    subst hp
    simp at hi
    simp [hi, resetEvents, resetPulse, rst_not_in_cmdFrames]
  case initialise => obtain ⟨_, r, _, rfl⟩ := hp; exact rst_not_in_cmdFrames _ _ _
  case present =>
    obtain ⟨_, rfl⟩ := hp
    cases h : s.hasCs <;> simp [presentEvents, pageWrite, rst_not_in_cmdFrames, frame]
  case setContrast => obtain ⟨_, rfl⟩ := hp; exact rst_not_in_cmdFrames _ _ _
  case setInverted => obtain ⟨_, rfl⟩ := hp; exact rst_not_in_cmdFrames _ _ _
  case setRotation => obtain ⟨_, r, _, rfl⟩ := hp; exact rst_not_in_cmdFrames _ _ _
  case setSleeping => obtain ⟨_, rfl⟩ := hp; exact rst_not_in_cmdFrames _ _ _

/-- Without a chip-select line no operation drives it. -/
theorem plan_cs {i : Instr} {s : State} {es : List Event} (he : emitting i = true)
    (hp : planned i s = some es) (hc : s.hasCs = false) : ∀ v, Event.setLine .cs v ∉ es := by
  intro v
  cases i <;> simp [emitting] at he <;> simp [planned, hc] at hp
  case reset =>
    subst hp
    cases h : s.hasRst <;> simp [resetEvents, resetPulse, cs_not_in_cmdFrames]
  case initialise => obtain ⟨_, r, _, rfl⟩ := hp; exact cs_not_in_cmdFrames _ _
  case present =>
    obtain ⟨_, rfl⟩ := hp
    simp [presentEvents, pageWrite, cs_not_in_cmdFrames, frame]
  case setContrast => obtain ⟨_, rfl⟩ := hp; exact cs_not_in_cmdFrames _ _
  case setInverted => obtain ⟨_, rfl⟩ := hp; exact cs_not_in_cmdFrames _ _
  case setRotation => obtain ⟨_, r, _, rfl⟩ := hp; exact cs_not_in_cmdFrames _ _
  case setSleeping => obtain ⟨_, rfl⟩ := hp; exact cs_not_in_cmdFrames _ _

end Sys2Proof.Machine
end

