-- ==== Sys2Proof/Laws/PerInstr.lean ====
section
/-!
SUPPORT. Facts about every instruction as syntax, one lemma per constructor.
-/

namespace Sys2Proof.Laws

/-- The operation code of a host row (spec/30_encoding.md R68, R70): RESERVED_EF is 14 or 15. -/
def hostOps (i : Instr) : List Nat :=
  match i with
  | .construct _ _ _ _ _ _ => [0]
  | .reset => [1]
  | .initialise _ _ _ _ => [2]
  | .present => [3]
  | .setContrast _ => [4]
  | .setInverted _ => [5]
  | .setRotation _ => [6]
  | .setSleeping _ => [7]
  | .setPixel _ _ _ => [8]
  | .getPixel _ _ => [9]
  | .fill _ => [10]
  | .bufWrite _ _ => [11]
  | .bufRead _ => [12]
  | .reservedD _ => [13]
  | .reservedEF _ => [14, 15]
  | _ => []

/-- The row of R73 of a controller command. -/
def commandRow (i : Instr) : Option String :=
  match i with
  | .collsb _ => some "COLLSB"
  | .colmsb _ => some "COLMSB"
  | .regratio _ => some "REGRATIO"
  | .powerctrl _ _ _ => some "POWERCTRL"
  | .startline _ => some "STARTLINE"
  | .setev _ => some "SETEV"
  | .segdir _ => some "SEGDIR"
  | .bias _ => some "BIAS"
  | .allpix _ => some "ALLPIX"
  | .inverse _ => some "INVERSE"
  | .disponoff _ => some "DISPONOFF"
  | .pageaddr _ => some "PAGEADDR"
  | .comdir _ => some "COMDIR"
  | .swreset => some "SWRESET"
  | .setbooster _ => some "SETBOOSTER"
  | _ => none

/-- The first byte of a code, as a command byte of the named row. -/
def firstByteOf (m : Option String) (c : Code) : Bool :=
  match c with
  | .wire .low (b :: _) => Machine.classifyCommand b == .command (m.getD "") b
  | _ => false

end Sys2Proof.Laws

namespace Sys2Proof.Laws.OpcodeField

/-- The code of a well-formed instruction carries its row's fixed bits: the operation code of R68, or a
first byte of its row of R73, or the DC level of display data (R76). -/
def Statement (i : Instr) : Prop :=
  i.wellFormed = true →
    (∃ w : Word, encode i = .request w ∧ w.toNat / 2 ^ 28 ∈ hostOps i) ∨
    firstByteOf (commandRow i) (encode i) = true ∨
    ∃ d, encode i = .wire .high [d]

theorem request_op (op payload : Nat) (hop : op < 15) (hp : payload < 2 ^ 28) :
    (BitVec.ofNat 32 (op * 2 ^ 28 + payload)).toNat / 2 ^ 28 = op := by
  rw [BitVec.toNat_ofNat]
  omega

theorem host (i : Instr) (op payload : Nat) (he : encode i = requestWord op payload) (hop : op < 15)
    (hp : payload < 2 ^ 28) (hm : op ∈ hostOps i) : Statement i := fun _ =>
  .inl ⟨_, he, by rw [request_op op payload hop hp]; exact hm⟩

theorem toNat_le_one (b : Bool) : b.toNat ≤ 1 := Bool.toNat_le b

theorem construct (hcs hrst : Bool) (rot : Nat) (inv : Bool) (con rat : Nat) :
    Statement (.construct hcs hrst rot inv con rat) := by
  intro h
  have h' := h
  simp only [Instr.wellFormed, Bool.and_eq_true, decide_eq_true_eq] at h'
  have := toNat_le_one hcs
  have := toNat_le_one hrst
  have := toNat_le_one inv
  exact host _ 0 _ rfl (by decide) (by omega) (by simp [hostOps]) h

theorem reset : Statement .reset := host _ 1 0 rfl (by decide) (by decide) (by simp [hostOps])

theorem initialise (rot : Nat) (inv : Bool) (con rat : Nat) :
    Statement (.initialise rot inv con rat) := by
  intro h
  have h' := h
  simp only [Instr.wellFormed, Bool.and_eq_true, decide_eq_true_eq] at h'
  have := toNat_le_one inv
  exact host _ 2 _ rfl (by decide) (by omega) (by simp [hostOps]) h

theorem present : Statement .present := host _ 3 0 rfl (by decide) (by decide) (by simp [hostOps])

theorem setContrast (v : Nat) : Statement (.setContrast v) := by
  intro h
  have h' := h
  simp only [Instr.wellFormed, decide_eq_true_eq] at h'
  exact host _ 4 v rfl (by decide) (by omega) (by simp [hostOps]) h

theorem setInverted (b : Bool) : Statement (.setInverted b) :=
  host _ 5 b.toNat rfl (by decide) (by have := toNat_le_one b; omega) (by simp [hostOps])

theorem setRotation (rot : Nat) : Statement (.setRotation rot) := by
  intro h
  have h' := h
  simp only [Instr.wellFormed, decide_eq_true_eq] at h'
  exact host _ 6 rot rfl (by decide) (by omega) (by simp [hostOps]) h

theorem setSleeping (b : Bool) : Statement (.setSleeping b) :=
  host _ 7 b.toNat rfl (by decide) (by have := toNat_le_one b; omega) (by simp [hostOps])

theorem setPixel (x y c : Nat) : Statement (.setPixel x y c) := by
  intro h
  have h' := h
  simp only [Instr.wellFormed, Bool.and_eq_true, decide_eq_true_eq] at h'
  exact host _ 8 _ rfl (by decide) (by omega) (by simp [hostOps]) h

theorem getPixel (x y : Nat) : Statement (.getPixel x y) := by
  intro h
  have h' := h
  simp only [Instr.wellFormed, Bool.and_eq_true, decide_eq_true_eq] at h'
  exact host _ 9 _ rfl (by decide) (by omega) (by simp [hostOps]) h

theorem fill (c : Nat) : Statement (.fill c) := by
  intro h
  have h' := h
  simp only [Instr.wellFormed, decide_eq_true_eq] at h'
  exact host _ 10 c rfl (by decide) (by omega) (by simp [hostOps]) h

theorem bufWrite (i : Nat) (v : Byte) : Statement (.bufWrite i v) := by
  intro h
  have h' := h
  simp only [Instr.wellFormed, decide_eq_true_eq] at h'
  have := v.isLt
  exact host _ 11 _ rfl (by decide) (by omega) (by simp [hostOps]) h

theorem bufRead (i : Nat) : Statement (.bufRead i) := by
  intro h
  have h' := h
  simp only [Instr.wellFormed, decide_eq_true_eq] at h'
  exact host _ 12 _ rfl (by decide) (by omega) (by simp [hostOps]) h

theorem reservedD (bits : Nat) : Statement (.reservedD bits) := by
  intro h
  have h' := h
  simp only [Instr.wellFormed, decide_eq_true_eq] at h'
  exact host _ 13 bits rfl (by decide) h' (by simp [hostOps]) h

theorem reservedEF (bits : Nat) : Statement (.reservedEF bits) := by
  intro h
  simp only [Instr.wellFormed, decide_eq_true_eq] at h
  refine .inl ⟨_, rfl, ?_⟩
  have : (BitVec.ofNat 32 (14 * 2 ^ 28 + bits)).toNat / 2 ^ 28 = 14 ∨
      (BitVec.ofNat 32 (14 * 2 ^ 28 + bits)).toNat / 2 ^ 28 = 15 := by
    rw [BitVec.toNat_ofNat]
    omega
  simpa [hostOps] using this

theorem collsb (n : Nat) : Statement (.collsb n) := by
  intro h
  simp only [Instr.wellFormed, decide_eq_true_eq] at h
  exact .inr (.inl (by interval_cases n <;> decide))

theorem colmsb (n : Nat) : Statement (.colmsb n) := by
  intro h
  simp only [Instr.wellFormed, decide_eq_true_eq] at h
  exact .inr (.inl (by interval_cases n <;> decide))

theorem regratio (r : Nat) : Statement (.regratio r) := by
  intro h
  simp only [Instr.wellFormed, decide_eq_true_eq] at h
  exact .inr (.inl (by interval_cases r <;> decide))

theorem powerctrl (vb vr vf : Bool) : Statement (.powerctrl vb vr vf) := fun _ =>
  .inr (.inl (by revert vb vr vf; decide))

theorem startline (l : Nat) : Statement (.startline l) := by
  intro h
  simp only [Instr.wellFormed, decide_eq_true_eq] at h
  exact .inr (.inl (by interval_cases l <;> decide))

theorem setev (e : Nat) : Statement (.setev e) := fun _ => .inr (.inl (by rfl))

theorem segdir (reverse : Bool) : Statement (.segdir reverse) := fun _ =>
  .inr (.inl (by revert reverse; decide))

theorem bias (oneSeventh : Bool) : Statement (.bias oneSeventh) := fun _ =>
  .inr (.inl (by revert oneSeventh; decide))

theorem allpix (on : Bool) : Statement (.allpix on) := fun _ => .inr (.inl (by revert on; decide))

theorem inverse (inv : Bool) : Statement (.inverse inv) := fun _ =>
  .inr (.inl (by revert inv; decide))

theorem disponoff (on : Bool) : Statement (.disponoff on) := fun _ =>
  .inr (.inl (by revert on; decide))

theorem pageaddr (p : Nat) : Statement (.pageaddr p) := by
  intro h
  simp only [Instr.wellFormed, decide_eq_true_eq] at h
  exact .inr (.inl (by interval_cases p <;> decide))

theorem comdir (reverse : Bool) : Statement (.comdir reverse) := fun _ =>
  .inr (.inl (by revert reverse; decide))

theorem swreset : Statement .swreset := fun _ => .inr (.inl (by decide))

theorem setbooster (level : Bool) : Statement (.setbooster level) := fun _ =>
  .inr (.inl (by revert level; decide))

theorem data (d : Byte) : Statement (.data d) := fun _ => .inr (.inr ⟨d, rfl⟩)

end Sys2Proof.Laws.OpcodeField
end

