-- ==== Sys2Proof/Laws/Pixels.lean ====
section
/-!
SUPPORT. The bits of a Pixel Buffer byte.
-/

namespace Sys2Proof.Machine

theorem onDisplay_iff {x y : Nat} : onDisplay x y = true ↔ x < 128 ∧ y < 64 := by
  unfold onDisplay
  rw [Bool.and_eq_true]
  exact ⟨fun h => ⟨of_decide_eq_true h.1, of_decide_eq_true h.2⟩,
    fun h => ⟨decide_eq_true h.1, decide_eq_true h.2⟩⟩

theorem setBit_bits (old : Byte) (k j : Nat) (b : Bool) (hj : j < 8) :
    (setBit old k b).getLsbD j = if j = k then b else old.getLsbD j := by
  unfold setBit
  cases b <;> simp [BitVec.getLsbD_one, BitVec.getLsbD_or]
  all_goals
    by_cases h : j = k
    · subst h
      simp [hj]
    · by_cases h2 : j < k
      · simp [h, h2, hj]
      · have : ¬(j - k = 0) := by omega
        simp [h, h2, hj, this]

theorem getBit_eq (v : Byte) (k : Nat) : getBit v k = if v.getLsbD k then 1 else 0 := by
  unfold getBit
  apply BitVec.eq_of_getLsbD_eq
  intro i hi
  cases hh : v.getLsbD k <;> simp [BitVec.getLsbD_one]
  · rcases Nat.eq_zero_or_pos i with h | h
    · subst h
      simp [hh]
    · intro _ h0
      omega
  · rcases Nat.eq_zero_or_pos i with h | h
    · subst h
      simp [hh]
    · have : ¬i = 0 := by omega
      simp [this]

end Sys2Proof.Machine
end

