-- ==== Sys2Proof/Laws/Step.lean ====
section
/-!
SUPPORT. All that a step from Idle can do, and the sequencer's single steps.
-/

namespace Sys2Proof.Machine

/-- A step from Idle waits, answers ILLEGAL, or runs the operation of the next request. -/
theorem step_idle_cases {s t : State} (hs : s.seq = .idle) (h : step s = .next t) :
    t = s ∨ ∃ w rest, s.requests = w :: rest ∧
      (((∃ e, decodeRequest w = .error e) ∧ t = raiseError .illegal (popRequest rest s)) ∨
        ∃ i, decodeRequest w = .ok i ∧ exec i (popRequest rest s) = .next t) := by
  unfold step at h
  rw [hs] at h
  simp only at h
  split at h
  · cases h
    exact .inl rfl
  · rename_i w rest hr
    refine .inr ⟨w, rest, hr, ?_⟩
    split at h
    · cases h
      exact .inl ⟨⟨_, by assumption⟩, rfl⟩
    · split at h
      · exact .inr ⟨_, by assumption, h⟩
      · cases h

/-- A request is never an instruction of the controller layer. -/
theorem request_not_wire {w : Word} {i : Instr} {p : Params} (h : decodeRequest w = .ok i) :
    wireBytes p i = none := by
  unfold decodeRequest ifReservedZero at h
  (split at h) <;> (try split at h) <;> cases h <;> rfl

/-- One action does not read or write `SEQ`. -/
theorem perform_seq (a : Action) (q : Seq) (s : State) :
    perform a { s with seq := q } = match perform a s with
      | .accepted t => .accepted { t with seq := q }
      | .failed t => .failed { t with seq := q } := by
  cases a with
  | write w => cases w <;> rfl
  | emit e =>
    cases e with
    | delay n => rfl
    | write bs =>
      simp only [perform, emit]
      cases draw s.failures with
      | mk o fs => cases o <;> rfl
    | setLine l v =>
      simp only [perform, emit]
      cases draw s.failures with
      | mk o fs => cases o <;> cases l <;> rfl

/-- A list of actions does not read or write `SEQ`. -/
theorem performAll_seq (as : List Action) (q : Seq) (s : State) :
    performAll as { s with seq := q } = match performAll as s with
      | .accepted t => .accepted { t with seq := q }
      | .failed t => .failed { t with seq := q } := by
  induction as generalizing s with
  | nil => rfl
  | cons a as ih =>
    simp only [performAll, perform_seq]
    cases perform a s with
    | accepted t => exact ih t
    | failed t => rfl

/-- An Idle sequencer does nothing. -/
theorem ticks_idle (n : Nat) (s : State) (h : s.seq = .idle) : ticks n s = s := by
  induction n with
  | zero => rfl
  | succ n ih =>
    rw [ticks, show tick s = s by simp [tick, h]]
    exact ih

theorem takeFrame_frame (c : Bool) (dc : Level) (b : Byte) (rest : List Action) :
    takeFrame c (emits (frame c dc [b]) ++ rest) = some (dc, b, rest) := by
  cases c <;> rfl

/-- What `takeFrame` takes is a frame of one byte in front of the list. -/
theorem takeFrame_some {c : Bool} {acts rest : List Action} {dc : Level} {b : Byte}
    (h : takeFrame c acts = some (dc, b, rest)) : acts = emits (frame c dc [b]) ++ rest := by
  unfold takeFrame at h
  cases c <;> simp only [Bool.false_eq_true, if_true, if_false] at h <;> split at h <;> cases h <;> rfl

/-- What `takeWire` takes is the frames of the instruction's bytes in front of the list. -/
theorem takeWire_some {c : Bool} {acts rest : List Action} {i : Instr} {dc : Level} {bs : List Byte}
    (h : takeWire c acts = some (i, dc, bs, rest)) :
    bs ≠ [] ∧ acts = emits (bs.flatMap fun x => frame c dc [x]) ++ rest := by
  unfold takeWire at h
  split at h
  · cases h
  · rename_i hf
    split at h
    · cases h
      exact ⟨List.cons_ne_nil _ _, by simp [takeFrame_some hf]⟩
    · split at h
      · cases h
      · rename_i hf'
        split at h
        · rename_i hdc
          split at h <;> cases h
          exact ⟨List.cons_ne_nil _ _, by simp [takeFrame_some hf, takeFrame_some hf', hdc, emits]⟩
        · cases h
    · cases h

/-- The instruction the sequencer stands before: the frames of its bytes are in front. -/
theorem nextCommand_some {s t : State} {i : Instr} {acts : List Action} {b : Bool}
    (hs : s.seq = .busy acts b) (h : nextCommand s = some (i, t)) :
    ∃ dc bs rest, bs ≠ [] ∧ acts = emits (bs.flatMap fun x => frame s.hasCs dc [x]) ++ rest ∧
      wireBytes s.params i = some (dc, bs) ∧ t = { s with seq := .busy rest b } := by
  unfold nextCommand at h
  rw [hs] at h
  simp only at h
  split at h
  · cases h
  · rename_i hw
    split at h <;> cases h
    exact ⟨_, _, _, (takeWire_some hw).1, (takeWire_some hw).2, by assumption, rfl⟩

-- Steps from Busy are steps of the sequencer

theorem ticks_add (m n : Nat) (s : State) : ticks (m + n) s = ticks n (ticks m s) := by
  induction m generalizing s with
  | zero => rw [Nat.zero_add]; rfl
  | succ m ih => rw [Nat.succ_add]; exact ih (tick s)

/-- The state once the front part of a running operation's list has been taken. -/
def advance (rest : List Action) (building : Bool) : Sent → State
  | .accepted t => settle { t with seq := .busy rest building }
  | .failed t => transportFailure building t

/-- Single steps over the front part of a list do what that part does as a whole. -/
theorem ticks_part (as rest : List Action) (b : Bool) (s : State) (ha : as ≠ []) :
    ticks as.length { s with seq := .busy (as ++ rest) b } = advance rest b (performAll as s) := by
  induction as generalizing s with
  | nil => exact absurd rfl ha
  | cons a as ih =>
    have ht : tick { s with seq := .busy (a :: as ++ rest) b } =
        advance (as ++ rest) b (perform a s) := by
      simp only [tick, List.cons_append, perform_seq]
      cases perform a s <;> rfl
    rw [List.length_cons, ticks, ht]
    simp only [performAll]
    cases perform a s with
    | failed u => exact ticks_idle _ _ rfl
    | accepted u =>
      cases as with
      | nil => rfl
      | cons a' as' => exact ih u (List.cons_ne_nil _ _)

/-- A part of a running operation, with the end of the operation when nothing is left, is such an
advance. -/
theorem settle_runPart (as rest : List Action) (b : Bool) (s : State) :
    settle (runPart as { s with seq := .busy rest b }) = advance rest b (performAll as s) := by
  unfold runPart
  rw [performAll_seq]
  cases performAll as s <;> rfl

/-- A step from Busy with no controller instruction in front takes one entry. -/
theorem step_busy_tick {s : State} (hs : s.seq ≠ .idle) (h : nextCommand s = none) :
    step s = .next (tick s) := by
  unfold step
  cases hq : s.seq with
  | idle => exact absurd hq hs
  | busy acts b => simp [h]

/-- A step from Busy in a block takes a front part of the list, of one entry or of a controller
instruction's frames. -/
theorem step_busy_part {s : State} {acts : List Action} {b : Bool} (hs : s.seq = .busy acts b)
    (hc : s.constructed = true) (ha : acts ≠ []) :
    ∃ as rest, as ≠ [] ∧ acts = as ++ rest ∧
      step s = .next (advance rest b (performAll as s)) := by
  have hset : ∀ as rest, acts = as ++ rest → { s with seq := .busy (as ++ rest) b } = s := by
    rintro as rest rfl
    rw [← hs]
  cases h : nextCommand s with
  | none =>
    cases acts with
    | nil => exact absurd rfl ha
    | cons a acts =>
      refine ⟨[a], acts, List.cons_ne_nil _ _, rfl, ?_⟩
      rw [step_busy_tick (by simp [hs]) h, ← ticks_part [a] acts b s (List.cons_ne_nil _ _),
        hset [a] acts rfl]
      rfl
  | some p =>
    obtain ⟨i, t⟩ := p
    obtain ⟨dc, bs, rest, hb, hacts, hw, ht⟩ := nextCommand_some hs h
    refine ⟨_, rest, ?_, hacts, ?_⟩
    · obtain ⟨x, bs', rfl⟩ := List.exists_cons_of_ne_nil hb
      cases s.hasCs <;> simp [frame, emits]
    · have hx : exec i t = .next (runPart (emits (bs.flatMap fun x => frame s.hasCs dc [x])) t) := by
        subst ht
        rw [exec_wire (s := { s with seq := .busy rest b }) hw]
        simp [onWire, hc]
      have hst : step s = .next (settle (runPart (emits (bs.flatMap fun x => frame s.hasCs dc [x])) t)) := by
        unfold step
        rw [hs]
        simp only [h, hx]
      rw [hst, ht, settle_runPart]

end Sys2Proof.Machine
end

