-- ==== Sys2Proof/Tests/Slice0.lean ====
section
/-!
SUPPORT. Tests. Expected values are the test vectors V1 to V120 of spec/95_test_vectors.md, or are written
out from the tables R66, R68 and R73 of spec/30_encoding.md; each theorem names its source.
-/

namespace Sys2Proof.Tests

open Sys2Proof Sys2Proof.Machine

/-- The next state of an instruction. -/
def runs (i : Instr) (s : State) : Option State :=
  match exec i s with
  | .next t => some t
  | .fault _ => none
  | .refused _ => none

/-- The next state of a step. -/
def stepped (s : State) : Option State :=
  match step s with
  | .next t => some t
  | .fault _ => none
  | .refused _ => none

/-- What an instruction's next state shows of a state. -/
def shows {α : Type} (i : Instr) (s : State) (f : State → α) : Option α := (runs i s).map f

/-- The response word after an instruction. -/
def response (i : Instr) (s : State) : Option (BitVec 16) := shows i s responseWord

/-- The wire view of what an instruction sends, as bytes. -/
def sent (i : Instr) (s : State) : Option (List Byte) :=
  shows i s fun t => (wireView .low t.trace).map Prod.snd

def resetting : State := { State.reset with life := .resetting }

def sleeping : State := { State.reset with life := .sleeping }

def rotated : State := { State.reset with rot := .deg180 }

/-- Neither optional line. -/
def bare : State := { State.reset with hasCs := false, hasRst := false }

/-- The collaborators' `n`-th next emission (from 0) fails, its line left High. -/
def failing (n : Nat) : State := { State.reset with failures := [⟨n, .high⟩] }

-- Ill-formed terms, one for each check (R67, R73)

theorem test_illformed_construct_rot : (Instr.construct true true 512 false 0 0).wellFormed = false := by decide
theorem test_illformed_construct_con : (Instr.construct true true 0 false 256 0).wellFormed = false := by decide
theorem test_illformed_construct_rat : (Instr.construct true true 0 false 0 256).wellFormed = false := by decide
theorem test_illformed_initialize_rot : (Instr.initialise 512 false 0 0).wellFormed = false := by decide
theorem test_illformed_initialize_con : (Instr.initialise 0 false 256 0).wellFormed = false := by decide
theorem test_illformed_initialize_rat : (Instr.initialise 0 false 0 256).wellFormed = false := by decide
theorem test_illformed_setcontrast : (Instr.setContrast 256).wellFormed = false := by decide
theorem test_illformed_setrotation : (Instr.setRotation 512).wellFormed = false := by decide
theorem test_illformed_setpixel_x : (Instr.setPixel 256 0 0).wellFormed = false := by decide
theorem test_illformed_setpixel_y : (Instr.setPixel 0 256 0).wellFormed = false := by decide
theorem test_illformed_setpixel_c : (Instr.setPixel 0 0 2).wellFormed = false := by decide
theorem test_illformed_getpixel_x : (Instr.getPixel 256 0).wellFormed = false := by decide
theorem test_illformed_getpixel_y : (Instr.getPixel 0 256).wellFormed = false := by decide
theorem test_illformed_fill : (Instr.fill 2).wellFormed = false := by decide
theorem test_illformed_bufwrite : (Instr.bufWrite 1024 0).wellFormed = false := by decide
theorem test_illformed_bufread : (Instr.bufRead 1024).wellFormed = false := by decide
theorem test_illformed_reserved_d : (Instr.reservedD 268435456).wellFormed = false := by decide
theorem test_illformed_reserved_ef : (Instr.reservedEF 536870912).wellFormed = false := by decide
theorem test_illformed_collsb : (Instr.collsb 16).wellFormed = false := by decide
theorem test_illformed_colmsb : (Instr.colmsb 16).wellFormed = false := by decide
theorem test_illformed_regratio : (Instr.regratio 8).wellFormed = false := by decide
theorem test_illformed_startline : (Instr.startline 64).wellFormed = false := by decide
theorem test_illformed_setev : (Instr.setev 64).wellFormed = false := by decide
theorem test_illformed_pageaddr : (Instr.pageaddr 16).wellFormed = false := by decide

-- Decoding, one theorem per constructor (V1 to V19, V50 to V56; bits from R66, R68, R73)

theorem test_decode_construct :
    decodeRequest 0b0000_1101_0110_1000_0001_1111_0000_0011#32 = .ok (.construct true true 180 false 0x1F 3) := by decide
theorem test_decode_construct_no_rst : decodeRequest 0x08001F03#32 = .ok (.construct true false 0 false 0x1F 3) := by decide
theorem test_decode_reset : decodeRequest 0x10000000#32 = .ok .reset := by decide
theorem test_decode_initialize :
    decodeRequest 0b0010_0001_0110_1001_0010_0000_0000_0101#32 = .ok (.initialise 180 true 0x20 5) := by decide
theorem test_decode_present : decodeRequest 0x30000000#32 = .ok .present := by decide
theorem test_decode_setcontrast : decodeRequest 0x4000002A#32 = .ok (.setContrast 0x2A) := by decide
theorem test_decode_setinverted : decodeRequest 0x50000001#32 = .ok (.setInverted true) := by decide
theorem test_decode_setrotation : decodeRequest 0x6000010E#32 = .ok (.setRotation 270) := by decide
theorem test_decode_setsleeping : decodeRequest 0x70000000#32 = .ok (.setSleeping false) := by decide
theorem test_decode_setpixel : decodeRequest 0x807F3F01#32 = .ok (.setPixel 127 63 1) := by decide
theorem test_decode_getpixel : decodeRequest 0x90050A00#32 = .ok (.getPixel 5 10) := by decide
theorem test_decode_fill : decodeRequest 0xA0000001#32 = .ok (.fill 1) := by decide
theorem test_decode_bufwrite : decodeRequest 0xB3FF005A#32 = .ok (.bufWrite 1023 0x5A) := by decide
theorem test_decode_bufread : decodeRequest 0xC0800000#32 = .ok (.bufRead 128) := by decide
theorem test_decode_reserved_d : decodeRequest 0xD0000000#32 = .ok (.reservedD 0) := by decide
theorem test_decode_reserved_e : decodeRequest 0xE0000000#32 = .ok (.reservedEF 0) := by decide
theorem test_decode_reserved_f : decodeRequest 0xF0000000#32 = .ok (.reservedEF 0x10000000) := by decide
theorem test_decode_reserved_fields :
    decodeRequest 0x30000001#32 = .error (.reservedFieldSet "PRESENT") ∧
    decodeRequest 0x50000002#32 = .error (.reservedFieldSet "SETINVERTED") ∧
    decodeRequest 0x90050A01#32 = .error (.reservedFieldSet "GETPIXEL") ∧
    decodeRequest 0x2C001F03#32 = .error (.reservedFieldSet "INITIALIZE") := by decide
theorem test_decode_collsb : decode (.wire .low [0b0000_0101]) = .ok (.collsb 5) := by decide
theorem test_decode_colmsb : decode (.wire .low [0b0001_1000]) = .ok (.colmsb 8) := by decide
theorem test_decode_regratio : decode (.wire .low [0b0010_0111]) = .ok (.regratio 7) := by decide
theorem test_decode_powerctrl : decode (.wire .low [0b0010_1110]) = .ok (.powerctrl true true false) := by decide
theorem test_decode_startline : decode (.wire .low [0b0111_1110]) = .ok (.startline 62) := by decide
theorem test_decode_setev : decode (.wire .low [0b1000_0001, 0b0000_0101]) = .ok (.setev 5) := by decide
theorem test_decode_segdir : decode (.wire .low [0b1010_0001]) = .ok (.segdir true) := by decide
theorem test_decode_bias : decode (.wire .low [0b1010_0010]) = .ok (.bias false) := by decide
theorem test_decode_allpix : decode (.wire .low [0b1010_0101]) = .ok (.allpix true) := by decide
theorem test_decode_inverse : decode (.wire .low [0b1010_0111]) = .ok (.inverse true) := by decide
theorem test_decode_disponoff : decode (.wire .low [0b1010_1110]) = .ok (.disponoff false) := by decide
theorem test_decode_pageaddr : decode (.wire .low [0b1011_0011]) = .ok (.pageaddr 3) := by decide
theorem test_decode_comdir :
    decode (.wire .low [0b1100_1000]) = .ok (.comdir true) ∧ decode (.wire .low [0b1100_1111]) = .ok (.comdir true) := by decide
theorem test_decode_swreset : decode (.wire .low [0b1110_0010]) = .ok .swreset := by decide
theorem test_decode_setbooster : decode (.wire .low [0b1111_1000, 0b0000_0001]) = .ok (.setbooster true) := by decide
theorem test_decode_data : decode (.wire .high [0x81]) = .ok (.data 0x81) := by decide
theorem test_decode_no_row : decode (.wire .low [0xE3]) = .error (.noCommandRow 0xE3) := by decide
theorem test_decode_operand_bits :
    decode (.wire .low [0x81, 0x40]) = .error (.reservedOperandBits "SETEV") ∧
    decode (.wire .low [0xF8]) = .error (.missingOperand "SETBOOSTER") := by decide

-- The Command Encoder (V20 to V40) and the assembler syntax (R79 to R81)

theorem test_enc_contrast :
    encContrast defaultParams 63 = [0x81, 0x3F] ∧ encContrast defaultParams 64 = [0x81, 0x00] ∧
    encContrast defaultParams 0x100 = [0x81, 0x00] := by decide
theorem test_enc_page :
    encPage defaultParams 7 = [0xB7] ∧ encPage defaultParams 15 = [0xBF] ∧ encPage defaultParams 16 = [0xB0] := by decide
theorem test_enc_column :
    encColumn defaultParams 0x83 = [0x18, 0x03] ∧ encColumn defaultParams 255 = [0x1F, 0x0F] ∧
    encColumn defaultParams 256 = [0x10, 0x00] := by decide
theorem test_enc_power :
    encPower defaultParams true false false = [0x2C] ∧ encPower defaultParams false false false = [0x28] := by decide
theorem test_enc_ratio_line :
    encRatio defaultParams 0xFF = [0x27] ∧ encStartLine defaultParams 63 = [0x7F] ∧
    encStartLine defaultParams 64 = [0x40] := by decide
theorem test_asm_pseudo :
    expandPseudo .clear = .fill 0 ∧ expandPseudo (.contrast 5) = .setContrast 5 ∧
    asmConstruct = .construct true true 0 false 0x1F 3 := by decide

-- Host operations (V60 to V112)

theorem test_construct_no_rst :
    sent (.construct true false 0 false 0x1F 3) State.powerOn =
      some [0xE2, 0xF8, 0x00, 0xA2, 0xA0, 0xC0, 0xA6, 0x23, 0x81, 0x1F, 0x2C, 0x2E, 0x2F, 0x40, 0xA4, 0xAF] := by decide
theorem test_construct_counts :
    shows (.construct false false 0 false 0x1F 3) State.powerOn (fun t => t.trace.length) = some 33 ∧
    shows (.construct false true 0 false 0x1F 3) State.powerOn (fun t => t.trace.length) = some 38 := by decide
theorem test_reset_events :
    shows .reset sleeping (fun t => (t.trace, t.life)) =
      some ([.setLine .rst .low, .delay 5, .setLine .rst .high, .delay 5, .setLine .dc .low,
        .setLine .cs .low, .write [0xE2], .setLine .cs .high], .resetting) := by decide
theorem test_reset_bare : shows .reset bare (fun t => t.trace) = some [.setLine .dc .low, .write [0xE2]] := by decide
theorem test_initialize_masks :
    sent (.initialise 0 true 64 8) resetting =
      some [0xF8, 0x00, 0xA2, 0xA0, 0xC0, 0xA7, 0x20, 0x81, 0x00, 0x2C, 0x2E, 0x2F, 0x40, 0xA4, 0xAF] := by decide
theorem test_initialize_stores :
    shows (.initialise 180 true 0x20 5) resetting (fun t => (t.rot, t.inv, t.ev, t.rr, t.life)) =
      some (.deg180, true, 0x20, 5, .initialized) := by decide
theorem test_present_refused : response .present resetting = some 0x0200 := by decide
theorem test_present_rotated :
    shows .present rotated (fun t => (t.trace.take 16, t.trace.length)) =
      some (cmdFrames true [0x40, 0xB0, 0x10, 0x04], 160) := by decide +kernel
theorem test_setcontrast_masks :
    shows (.setContrast 0xFF) sleeping (fun t => (t.ev, t.life)) = some (0x3F, .sleeping) ∧
    sent (.setContrast 64) State.reset = some [0x81, 0x00] := by decide
theorem test_setinverted_resends :
    sent (.setInverted true) { State.reset with inv := true } = some [0xA7] := by decide
theorem test_setrotation :
    sent (.setRotation 180) State.reset = some [0xA1, 0xC8] ∧
    shows (.setRotation 180) State.reset colOff = some 4 := by decide
theorem test_setrotation_90 :
    response (.setRotation 90) resetting = some 0x0100 ∧ shows (.setRotation 90) rotated (fun t => t.rot) = some .deg180 := by decide
theorem test_setsleeping :
    sent (.setSleeping true) sleeping = some [0xAE, 0xA5] ∧ sent (.setSleeping false) sleeping = some [0xA4, 0xAF] := by decide
theorem test_setpixel_bits :
    shows (.setPixel 0 7 1) resetting (fun t => t.buf) = some [(0, 0x80)] ∧
    shows (.setPixel 127 63 1) State.reset (fun t => t.buf) = some [(1023, 0x80)] := by decide
theorem test_setpixel_clips :
    shows (.setPixel 0 64 1) State.reset (fun t => (t.buf, t.status)) = some ([], .ok) := by decide
theorem test_getpixel :
    response (.getPixel 5 10) { State.reset with buf := [(133, 0x04)] } = some 0x0001 ∧
    response (.getPixel 128 0) State.reset = some 0x0400 := by decide
theorem test_fill : shows (.fill 1) State.reset (fun t => Memory.read t.buf 517) = some 0xFF := by decide +kernel
theorem test_bufwrite_edge :
    shows (.bufWrite 1023 0x5A) State.reset (fun t => t.buf) = some [(1023, 0x5A)] ∧
    response (.bufWrite 1024 0x5A) State.reset = some 0x0400 := by decide
theorem test_bufread : response (.bufRead 1023) { State.reset with buf := [(1023, 0x5A)] } = some 0x005A := by decide
theorem test_bufwrite_canonical :
    shows (.bufWrite 5 0x00) { State.reset with buf := [(5, 0x3C)] } (fun t => t.buf) = some [] := by decide

-- Errors (V115 to V120)

theorem test_transport_error :
    shows (.setContrast 0x2A) (failing 6) (fun t => (responseWord t, t.ev, t.csLvl, t.trace.length)) =
      some (0x0300, 0x1F, .low, 7) := by decide
theorem test_failed_reset_pulse :
    shows .reset (failing 0) (fun t => (responseWord t, t.life, t.trace)) =
      some (0x0300, .initialized, [.setLine .rst .low]) := by decide
theorem test_failed_construct :
    shows (.construct true true 0 false 0x1F 3) (failing 3) (fun t => (t.constructed, responseWord t)) =
      some (false, 0x0300) := by decide

-- Controller bytes and the step

theorem test_command_frames :
    shows .swreset State.reset (fun t => t.trace) =
      some [.setLine .dc .low, .setLine .cs .low, .write [0xE2], .setLine .cs .high] ∧
    shows (.data 0x81) bare (fun t => t.trace) = some [.setLine .dc .high, .write [0x81]] := by decide
theorem test_step_request :
    (stepped (State.reset.withFetchWord 32 0x4000002A)).map (fun t => (t.ev, t.requests)) = some (0x2A, []) := by decide
theorem test_step_illegal :
    (stepped (State.reset.withFetchWord 32 0xD0000000)).map responseWord = some 0x0400 ∧
    (stepped (State.powerOn.withFetchWord 32 0x30000001)).map responseWord = some 0x0400 := by decide
theorem test_step_command :
    (stepped (State.reset.withFetchWord 8 0xAE)).map (fun t => (t.trace, t.seq)) =
      some (cmdFrames true [0xAE], .idle) := by decide
theorem test_step_prefixed :
    (stepped (State.reset.withFetchWord 16 0x0581)).map (fun t => (t.trace, t.seq)) =
      some (cmdFrames true [0x81, 0x05], .idle) := by decide
/-- R30, R202: no frame in front, so one event is one step. -/
theorem test_step_one_event :
    let s : State := { State.reset with seq := .busy (emits (frame true .high [0x00, 0x81])) false }
    (stepped s).map (fun t => t.trace) = some [.setLine .dc .high] ∧
    (stepped { s with seq := .busy [.emit (.delay 5)] false }).map (fun t => (t.trace, t.seq, t.status)) =
      some ([.delay 5], .idle, .ok) := by decide
theorem test_table_words :
    decodeTableWord 32 0x30000000 = some .present ∧ decodeTableWord 8 0x81 = some (.setev 0) ∧
    decodeTableWord 16 0x0581 = some (.setev 5) ∧ decodeTableWord 8 0xE3 = none := by decide
theorem test_wire_operand :
    classify false [(.low, 0x81), (.low, 0x05), (.low, 0x05), (.high, 0x81)] =
      [.command "SETEV" 0x81, .operand 0x05, .command "COLLSB" 0x05, .data 0x81] := by decide

/-- The collaborators' next failure falls on the event after `pre`. -/
def fallsOn (es pre : List Event) (e : Event) (post : List Event) (s : State) : Prop :=
  es = pre ++ e :: post ∧ canFail e = true ∧ ∃ f rest, s.failures = f :: rest ∧ f.after = emissions pre

-- Witnesses: for every obligation with hypotheses, a state and operands that meet them all together

theorem witness_DecodeInvertsEncode :
    (Instr.construct true true 511 true 255 255).wellFormed = true ∧ (Instr.setev 63).wellFormed = true ∧
    (Instr.reservedEF 536870911).wellFormed = true := by decide

theorem witness_RequestWordsAreCodes : decodeRequest 0xC3FF0000#32 = .ok (.bufRead 1023) := by decide

theorem witness_IllegalWordIsAnsweredIllegal :
    State.reset.seq = .idle ∧ ({ State.reset with requests := [0x50000002] } : State).requests = [0x50000002] ∧
    (∀ f ∈ hostFormats, (0x50000002 : Word) &&& f.2 ≠ f.1) ∧
    ∀ f ∈ hostFormats, (0xF0000000 : Word) &&& f.2 ≠ f.1 :=
  ⟨rfl, rfl, by simp [hostFormats], by simp [hostFormats]⟩

theorem witness_LegalWordDecodesToOperation :
    (∃ f ∈ hostFormats, (0x807F3F01 : Word) &&& f.2 = f.1) ∧
    ∃ f ∈ hostFormats, (0x30000000 : Word) &&& f.2 = f.1 := by decide

theorem witness_ReservedCodesAreIllegal : State.reset.seq = .idle ∧ State.powerOn.seq = .idle := by decide

theorem witness_ByteAfterPrefixIsOperand :
    isPrefixByte 0x81 = true ∧ isPrefixByte 0xF8 = true ∧
    decodeWire .low [0x81, 0x3F, 0xAE] = .ok (.setev 63, [0xAE]) ∧
    decodeWire .low [0xF8, 0x00] = .ok (.setbooster false, []) := by decide

theorem witness_EncoderAgreesWithCommandTable :
    (Instr.pageaddr 15).wellFormed = true ∧
    wireBytes defaultParams (.pageaddr 15) = some (.low, [0xBF]) ∧
    wireBytes defaultParams (.data 0xFF) = some (.high, [0xFF]) := by decide

/-- In a block, and where there is none: construct with its default operands (V1), and a reserved word. -/
theorem witness_StepRunsRequest :
    let s : State := { State.reset with requests := [0x4000002A] }
    let u : State := { State.powerOn with requests := [0x0C001F03, 0xD0000000] }
    s.seq = .idle ∧ s.requests = 0x4000002A :: [] ∧
    decodeRequest 0x4000002A = .ok (.setContrast 0x2A) ∧ admitted (.setContrast 0x2A) s = true ∧
    u.seq = .idle ∧ u.constructed = false ∧ u.requests = 0x0C001F03 :: [0xD0000000] ∧
    decodeRequest 0x0C001F03 = .ok (.construct true true 0 false 0x1F 3) ∧
    admitted (.construct true true 0 false 0x1F 3) u = true ∧
    decodeRequest 0xD0000000 = .ok (.reservedD 0) ∧ admitted (.reservedD 0) u = true := by decide

theorem witness_StepRunsCommand :
    let s : State := { State.reset with seq := .busy (emits (cmdFrames true [0x81, 0x05]) ++ [.write (.ev 5)]) false }
    s.seq = .busy (emits ([0x81, 0x05].flatMap fun x => frame s.hasCs .low [x]) ++ [.write (.ev 5)]) false ∧
    decode (.wire .low [0x81, 0x05]) = .ok (.setev 5) ∧
    wireBytes s.params (.setev 5) = some (.low, [0x81, 0x05]) := by decide

theorem witness_NothingHappensWithoutRequest :
    State.reset.seq = .idle ∧ State.reset.requests = [] := by decide

theorem witness_NoBlockNoRegisters :
    let s : State := { State.powerOn with requests := [0x30000000] }
    s.constructed = false ∧ s.seq = .idle ∧ needsBlock .present = true ∧ needsBlock .swreset = true ∧
    s.requests = 0x30000000 :: [] ∧ decodeRequest 0x30000000 = .ok .present := by decide

/-- The first emission fails, and the last (R191's 71 events with the two delays left out). -/
theorem witness_ConstructMakesBlock :
    State.powerOn.seq = .idle ∧ legalRotation 180 = some .deg180 ∧ legalRotation 0 = some .deg0 ∧
    quietFor (emissions goldenConstruct) State.powerOn.failures = true ∧
    (failing 0).failures = ⟨0, .high⟩ :: [] ∧ 0 < emissions goldenConstruct ∧
    (failing 68).failures = ⟨68, .high⟩ :: [] ∧ 68 < emissions goldenConstruct ∧
    (failing 68).seq = .idle ∧
    fallsOn goldenConstruct (goldenConstruct.take 70) (.setLine .cs .high) [] (failing 68) :=
  ⟨rfl, rfl, rfl, rfl, rfl, by decide, rfl, by decide, rfl, rfl, rfl, _, _, rfl, rfl⟩

/-- V120: the first event of the reset pulse fails. -/
theorem witness_ResetPulsesAndGoesToResetting :
    (failing 0).ready ∧ quietFor (emissions (resetEvents defaultParams true true)) State.reset.failures = true ∧
    fallsOn (resetEvents defaultParams true true) [] (.setLine .rst .low)
      ((resetEvents defaultParams true true).drop 1) (failing 0) :=
  ⟨⟨rfl, rfl⟩, rfl, rfl, rfl, _, _, rfl, rfl⟩

theorem witness_InitializeReplaysSequence :
    resetting.ready ∧ legalRotation 0 = some .deg0 ∧ legalRotation 180 = some .deg180 ∧
    legalRotation 90 = none ∧ resetting.life = .resetting ∧ State.reset.life ≠ .resetting ∧
    quietFor 60 resetting.failures = true :=
  ⟨⟨rfl, rfl⟩, by decide⟩

theorem witness_SetSleepingSwitchesDisplay :
    sleeping.ready ∧ resetting.ready ∧ runtime sleeping.life = true ∧ runtime resetting.life = false ∧
    quietFor 8 sleeping.failures = true :=
  ⟨⟨rfl, rfl⟩, ⟨rfl, rfl⟩, by decide⟩

theorem witness_BadRotationIsConfigError :
    (∀ rot ∈ [1, 179, 181, 511], rot ≠ 0 ∧ rot ≠ 180) ∧ State.reset.seq = .idle ∧
    State.reset.constructed = true ∧ State.powerOn.seq = .idle ∧ State.powerOn.constructed = false := by
  decide

theorem witness_LifecycleGate :
    resetting.ready ∧ (resetting.life = .unreset ∨ resetting.life = .resetting) ∧
    State.reset.life ≠ .resetting :=
  ⟨⟨rfl, rfl⟩, by decide⟩

theorem witness_ColumnOffsetFollowsRotation :
    legalRotation 180 = some .deg180 ∧
    ∃ t, exec (.setRotation 180) State.reset = .next t ∧ t.status = .ok :=
  ⟨rfl, _, rfl, rfl⟩

theorem witness_PresentSendsWholeBuffer :
    sleeping.ready ∧ bare.ready ∧ runtime sleeping.life = true ∧ runtime resetting.life = false ∧
    quietFor 160 sleeping.failures = true ∧ quietFor 80 bare.failures = true :=
  ⟨⟨rfl, rfl⟩, ⟨rfl, rfl⟩, by decide⟩

theorem witness_PresentWireView : ∃ t, exec .present State.reset = .next t ∧ t.status = .ok :=
  ⟨_, rfl, rfl⟩

theorem witness_PresentDependsOnBufferOffsetAndCs :
    State.reset.buf = sleeping.buf ∧ colOff State.reset = colOff sleeping ∧
    State.reset.hasCs = sleeping.hasCs ∧ State.reset.params = sleeping.params ∧
    (∃ t, exec .present State.reset = .next t ∧ t.status = .ok) ∧
    ∃ t, exec .present sleeping = .next t ∧ t.status = .ok :=
  ⟨rfl, rfl, rfl, rfl, ⟨_, rfl, rfl⟩, _, rfl, rfl⟩

theorem witness_SleepCycleKeepsImage :
    ∃ a b c d, exec (.setSleeping true) State.reset = .next a ∧ a.status = .ok ∧
      exec (.setSleeping false) a = .next b ∧ b.status = .ok ∧ exec .present b = .next c ∧
      c.status = .ok ∧ exec .present State.reset = .next d ∧ d.status = .ok :=
  ⟨_, _, _, _, rfl, rfl, rfl, rfl, rfl, rfl, rfl, rfl⟩

/-- V119: the write of the operand fails. -/
theorem witness_SetContrastMasksSendsAndStores :
    (failing 6).ready ∧ bare.ready ∧ runtime bare.life = true ∧ runtime resetting.life = false ∧
    quietFor 8 State.reset.failures = true ∧ quietFor 4 bare.failures = true ∧
    fallsOn (cmdFrames true [0x81, 0x2A])
      ((cmdFrames true [0x81, 0x2A]).take 6) (.write [0x2A]) [.setLine .cs .high] (failing 6) :=
  ⟨⟨rfl, rfl⟩, ⟨rfl, rfl⟩, rfl, rfl, rfl, rfl, rfl, rfl, _, _, rfl, rfl⟩

theorem witness_SetInvertedSendsPolarity :
    sleeping.ready ∧ runtime sleeping.life = true ∧ runtime resetting.life = false ∧
    quietFor 4 sleeping.failures = true ∧ quietFor 2 bare.failures = true :=
  ⟨⟨rfl, rfl⟩, by decide⟩

theorem witness_SetRotationSendsDirections :
    rotated.ready ∧ legalRotation 0 = some .deg0 ∧ legalRotation 180 = some .deg180 ∧
    legalRotation 181 = none ∧ runtime rotated.life = true ∧ runtime resetting.life = false ∧
    quietFor 8 rotated.failures = true ∧ quietFor 4 bare.failures = true :=
  ⟨⟨rfl, rfl⟩, by decide⟩

/-- Corners of the display, and the first places off it. -/
theorem witness_SetPixelWritesOneBit :
    resetting.ready ∧ Memory.wf resetting.buf = true ∧ 127 < 128 ∧ 63 < 64 ∧ 128 ≤ 128 ∧ 64 ≤ 64 :=
  ⟨⟨rfl, rfl⟩, by decide⟩

theorem witness_GetPixelReadsOneBit : resetting.ready ∧ 127 < 128 ∧ 63 < 64 ∧ 128 ≤ 128 ∧ 64 ≤ 64 :=
  ⟨⟨rfl, rfl⟩, by decide⟩

theorem witness_FillWritesEveryByte : sleeping.ready ∧ Memory.wf sleeping.buf = true :=
  ⟨⟨rfl, rfl⟩, rfl⟩

theorem witness_BufWriteWritesOneByte :
    State.reset.ready ∧ Memory.wf State.reset.buf = true ∧ 1023 < 1024 ∧ 1024 ≤ 1024 :=
  ⟨⟨rfl, rfl⟩, by decide⟩

theorem witness_BufReadReadsOneByte : State.reset.ready ∧ 1023 < 1024 ∧ 1024 ≤ 1024 :=
  ⟨⟨rfl, rfl⟩, by decide⟩

theorem witness_PixelsAreIndependent :
    State.reset.ready ∧ Memory.wf State.reset.buf = true ∧
    ∃ t, exec (.setPixel 127 63 1) State.reset = .next t :=
  ⟨⟨rfl, rfl⟩, rfl, _, rfl⟩

theorem witness_CommandsSendTheirBytes :
    State.reset.constructed = true ∧ wireBytes State.reset.params (.setev 63) = some (.low, [0x81, 0x3F]) ∧
    wireBytes State.reset.params (.data 0) = some (.high, [0]) ∧
    quietFor (emissions ([0x81, 0x3F].flatMap fun b => frame true .low [b])) State.reset.failures = true := by
  decide

theorem witness_CheckErrorsChangeNothing :
    resetting.seq = .idle ∧
    (∃ t, exec (.setRotation 90) resetting = .next t ∧ t.status = .configError) ∧
    (∃ t, exec .present resetting = .next t ∧ t.status = .lifecycleError) ∧
    (∃ t, exec (.bufRead 1024) resetting = .next t ∧ t.status = .illegal) ∧
    ∀ dc bs, wireBytes resetting.params .present ≠ some (dc, bs) :=
  ⟨rfl, ⟨_, rfl, rfl⟩, ⟨_, rfl, rfl⟩, ⟨_, rfl, rfl⟩, fun _ _ h => by cases h⟩

theorem witness_TransportErrorIsPrecise :
    (failing 6).ready ∧ planned (.setContrast 0x2A) (failing 6) = some (cmdFrames true [0x81, 0x2A]) ∧
    (∀ hcs hrst rot inv con rat, Instr.setContrast 0x2A ≠ .construct hcs hrst rot inv con rat) :=
  ⟨⟨rfl, rfl⟩, by decide, fun _ _ _ _ _ _ h => by cases h⟩

/-- The write of setContrast's operand fails inside it (V119), a byte that construct sends, and one sent
from Idle. -/
theorem witness_FailedCommandEndsOperation :
    let s : State := { failing 6 with seq := .busy [.write (.ev 0x2A)] false }
    let u : State := { failing 1 with seq := .busy [.write (.life .resetting)] true }
    s.constructed = true ∧ wireBytes s.params (.setev 0x2A) = some (.low, [0x81, 0x2A]) ∧
    s.seq = .busy [.write (.ev 0x2A)] false ∧
    fallsOn (cmdFrames true [0x81, 0x2A]) ((cmdFrames true [0x81, 0x2A]).take 6) (.write [0x2A])
      [.setLine .cs .high] s ∧
    u.constructed = true ∧ u.seq = .busy [.write (.life .resetting)] true ∧ (failing 1).seq = .idle ∧
    wireBytes u.params .swreset = some (.low, [0xE2]) ∧
    fallsOn (frame true .low [0xE2]) [.setLine .dc .low] (.setLine .cs .low)
      [.write [0xE2], .setLine .cs .high] u :=
  ⟨rfl, rfl, rfl, ⟨rfl, rfl, _, _, rfl, rfl⟩, rfl, rfl, rfl, rfl, rfl, rfl, _, _, rfl, rfl⟩

theorem witness_AcceptedOperationEmitsItsPlan :
    State.reset.ready ∧ planned (.setInverted true) State.reset = some (cmdFrames true [0xA7]) ∧
    quietFor (emissions (cmdFrames true [0xA7])) State.reset.failures = true :=
  ⟨⟨rfl, rfl⟩, by decide⟩

theorem witness_EventCounts :
    planned .reset bare = some [.setLine .dc .low, .write [0xE2]] ∧ bare.params.boosterSeq.length = 2 := by decide

theorem witness_ResetHoldsEachPhase :
    Params.legal State.reset.params = true ∧ State.reset.hasRst = true ∧ bare.hasRst = false ∧
    (∃ t, exec .reset State.reset = .next t ∧ t.status = .ok) ∧
    ∃ t, exec .reset bare = .next t ∧ t.status = .ok :=
  ⟨by decide, rfl, rfl, ⟨_, rfl, rfl⟩, _, rfl, rfl⟩

theorem witness_EmittingOperationsFrame :
    (∃ t, exec .reset State.reset = .next t) ∧ (∃ t, exec .present State.reset = .next t) ∧
    (∃ t, exec (.setContrast 64) State.reset = .next t) :=
  ⟨⟨_, rfl⟩, ⟨_, rfl⟩, _, rfl⟩

theorem witness_PixelOperationsFrame :
    Memory.wf State.reset.buf = true ∧ (∃ t, exec (.setPixel 0 0 1) State.reset = .next t) ∧
    (∃ t, exec (.bufWrite 1023 1) State.reset = .next t) ∧ (∃ t, exec (.fill 1) State.reset = .next t) ∧
    ∃ t, exec (.bufRead 1023) State.reset = .next t :=
  ⟨rfl, ⟨_, rfl⟩, ⟨_, rfl⟩, ⟨_, rfl⟩, _, rfl⟩

theorem witness_CommandsFrame :
    wireBytes State.reset.params .swreset = some (.low, [0xE2]) ∧ ∃ t, exec .swreset State.reset = .next t :=
  ⟨rfl, _, rfl⟩

/-- An accepted construct, and one whose first emission fails. -/
theorem witness_ConstructFrame :
    (∃ t, exec (.construct true false 180 true 64 8) State.powerOn = .next t ∧ t.status ≠ .configError) ∧
    ∃ t, exec (.construct true false 180 true 64 8) (failing 0) = .next t ∧ t.status = .transportError :=
  ⟨⟨_, rfl, by decide⟩, _, rfl, rfl⟩

theorem reset_inv : State.reset.Inv :=
  ⟨by decide, rfl, rfl, by decide, by decide, by decide⟩

theorem witness_StepKeepsInvariant :
    ∃ s t : State, s.Inv ∧ step s = .next t ∧ t ≠ s :=
  ⟨{ State.reset with requests := [0x70000001] }, _,
    ⟨by decide, rfl, rfl, by decide, by decide, by decide⟩, rfl, by decide⟩

theorem witness_LinesAreIdleBetweenOperations :
    State.reset.Inv ∧ State.reset.linesIdle ∧ State.reset.failures = [] ∧ ∃ t, step State.reset = .next t :=
  ⟨reset_inv, ⟨rfl, rfl⟩, rfl, _, rfl⟩

/-- V80, as a step. -/
theorem witness_LifecycleTransitions :
    ∃ s t : State, s.Inv ∧ s.constructed = true ∧ step s = .next t ∧ t.constructed = true ∧ t.life ≠ s.life :=
  ⟨{ State.reset with requests := [0x70000001] }, _,
    ⟨by decide, rfl, rfl, by decide, by decide, by decide⟩, rfl, rfl, rfl, by decide⟩

theorem witness_RegisterWriters :
    (∃ t, exec (.setContrast 5) State.reset = .next t ∧ t.constructed = true ∧ t.ev ≠ State.reset.ev) ∧
    (∃ t, exec (.setSleeping true) State.reset = .next t ∧ t.constructed = true ∧
      t.life ≠ State.reset.life) ∧
    ∃ t, exec (.bufWrite 1023 1) State.reset = .next t ∧ t.constructed = true ∧ t.buf ≠ State.reset.buf :=
  ⟨⟨_, rfl, rfl, by decide⟩, ⟨_, rfl, rfl, by decide⟩, _, rfl, rfl, by decide⟩

/-- A block with a list to take; and a sequencer that stands before a delay, a register write, or a
display page's data frame. -/
theorem witness_SequencerStepsAreTheOperation :
    emits (cmdFrames true [0xAE]) ≠ [] ∧ State.reset.constructed = true ∧
    ∀ acts ∈ [[.emit (.delay 5)], [.write (.ev 5)], emits (frame true .high [0x00, 0x81])],
      let s : State := { State.reset with seq := .busy acts false }
      s.seq ≠ .idle ∧ nextCommand s = none := by decide

theorem witness_OperationIsSequencerRun :
    State.reset.ready ∧ planned (.setInverted true) State.reset = some (cmdFrames true [0xA7]) ∧
    cmdFrames true [0xA7] ≠ [] ∧
    ∀ hcs hrst rot inv con rat, Instr.setInverted true ≠ .construct hcs hrst rot inv con rat :=
  ⟨⟨rfl, rfl⟩, by decide, by decide, fun _ _ _ _ _ _ h => by cases h⟩

end Sys2Proof.Tests
end

/-!
SUPPORT. The proofs of the family of spec/10_state.md, after what they share: the kinds of
instructions, the accepted run of a list of actions, the lines at rest, the writers of the registers,
the machine's steps through an operation's list, and the controller instruction in front of it.
-/

namespace Sys2Proof.Machine

-- The kinds of instructions

/-- A Pixel Buffer operation (spec/44_pixel_buffer.md). -/
def pixelOp (i : Instr) : Prop :=
  (∃ x y c, i = .setPixel x y c) ∨ (∃ x y, i = .getPixel x y) ∨ (∃ c, i = .fill c) ∨
    (∃ n v, i = .bufWrite n v) ∨ ∃ n, i = .bufRead n

/-- Every instruction is a construct, an emitting operation on a block, a Pixel Buffer operation, a
reserved word or an instruction of the controller layer. -/
theorem instr_kinds (i : Instr) (p : Params) :
    (∃ hcs hrst rot inv con rat, i = .construct hcs hrst rot inv con rat) ∨ emitting i = true ∨
      pixelOp i ∨ ((∃ bits, i = .reservedD bits) ∨ ∃ bits, i = .reservedEF bits) ∨
      ∃ dc bs, wireBytes p i = some (dc, bs) := by
  cases i <;> simp [emitting, pixelOp, wireBytes]

/-- A reserved word is answered ILLEGAL (spec/30_encoding.md R70). -/
theorem reserved_next {i : Instr} {s t : State}
    (hi : (∃ bits, i = .reservedD bits) ∨ ∃ bits, i = .reservedEF bits) (h : exec i s = .next t) :
    t = raiseError .illegal s := by
  rcases hi with ⟨bits, rfl⟩ | ⟨bits, rfl⟩ <;> exact (onPort_next h).2

-- Where no block exists

theorem onBlock_noBlock {s : State} (t : State) (hs : s.seq = .idle) (hc : s.constructed = false) :
    onBlock s t = .fault .noBlock := by
  simp [onBlock, hs, hc]

theorem onWire_noBlock {s : State} (acts : List Action) (hc : s.constructed = false) :
    onWire acts s = .fault .noBlock := by
  simp [onWire, hc]

/-- A meaning that needs a block faults where there is none (spec/10_state.md R35). -/
theorem exec_noBlock {i : Instr} {s : State} (hs : s.seq = .idle) (hc : s.constructed = false)
    (hi : needsBlock i = true) : exec i s = .fault .noBlock := by
  rcases instr_kinds i s.params with ⟨_, _, _, _, _, _, rfl⟩ | he | hp | hr | ⟨dc, bs, hw⟩
  · cases hi
  · cases i <;> simp only [emitting, reduceCtorEq] at he <;> exact onBlock_noBlock _ hs hc
  · rcases hp with ⟨_, _, _, rfl⟩ | ⟨_, _, rfl⟩ | ⟨_, rfl⟩ | ⟨_, _, rfl⟩ | ⟨_, rfl⟩ <;>
      exact onBlock_noBlock _ hs hc
  · rcases hr with ⟨_, rfl⟩ | ⟨_, rfl⟩ <;> cases hi
  · rw [exec_wire hw]
    exact onWire_noBlock _ hc

-- The accepted run of a list of actions

@[simp] theorem eventsOf_writes (ws : List RegWrite) : eventsOf (ws.map Action.write) = [] := by
  induction ws with
  | nil => rfl
  | cons w ws ih => exact ih

@[simp] theorem eventsOf_write_cons (w : RegWrite) (acts : List Action) :
    eventsOf (.write w :: acts) = eventsOf acts := rfl

@[simp] theorem levelOf_respond (l : Line) (st : Status) (d : Byte) (s : State) :
    levelOf l (respond st d s) = levelOf l s := by cases l <;> rfl

@[simp] theorem levelOf_writeReg (l : Line) (w : RegWrite) (s : State) :
    levelOf l (writeReg w s) = levelOf l s := writeAll_level l [w] s

theorem levelOf_delivered (l : Line) (es : List Event) (s : State) :
    levelOf l (delivered es s) = levelAfter l (levelOf l s) es := by cases l <;> rfl

/-- A list whose emissions are all accepted: its events are the trace's last, each line is at the level
they leave it at, and the block stays (spec/10_state.md R30). -/
theorem performAll_quiet (acts : List Action) (s : State)
    (h : quietFor (emissions (eventsOf acts)) s.failures = true) :
    ∃ t, performAll acts s = .accepted t ∧ t.trace = s.trace ++ eventsOf acts ∧
      t.failures = afterQuiet (emissions (eventsOf acts)) s.failures ∧
      t.constructed = s.constructed ∧
      ∀ l, levelOf l t = levelAfter l (levelOf l s) (eventsOf acts) := by
  induction acts generalizing s with
  | nil => exact ⟨s, rfl, by simp [eventsOf], by simp [eventsOf], rfl, fun _ => rfl⟩
  | cons a acts ih =>
    cases a with
    | write w =>
      obtain ⟨t, hp, htr, hf, hc, hl⟩ := ih (writeReg w s) (by simpa using h)
      exact ⟨t, hp, by simpa using htr, by simpa using hf, by simpa using hc, by simpa using hl⟩
    | emit e =>
      have hsplit : eventsOf (.emit e :: acts) = [e] ++ eventsOf acts := rfl
      rw [hsplit, emissions_append] at h ⊢
      obtain ⟨h1, h2⟩ := quietFor_add _ _ _ h
      obtain ⟨t, hp, htr, hf, hc, hl⟩ := ih (delivered [e] s) h2
      refine ⟨t, ?_, ?_, ?_, hc, fun l => ?_⟩
      · simpa [performAll, perform, emit_quiet e s h1] using hp
      · simpa [delivered] using htr
      · simpa [delivered, afterQuiet_afterQuiet] using hf
      · rw [hl, levelOf_delivered, levelAfter_append]

/-- An operation whose emissions are all accepted. -/
theorem runOp_accepted (b : Bool) (acts : List Action) (s : State)
    (h : quietFor (emissions (eventsOf acts)) s.failures = true) :
    (runOp b acts s).status = .ok ∧ (runOp b acts s).trace = s.trace ++ eventsOf acts ∧
      (runOp b acts s).seq = .idle ∧ (runOp b acts s).constructed = s.constructed ∧
      (runOp b acts s).failures = afterQuiet (emissions (eventsOf acts)) s.failures ∧
      ∀ l, levelOf l (runOp b acts s) = levelAfter l (levelOf l s) (eventsOf acts) := by
  obtain ⟨t, hp, htr, hf, hc, hl⟩ := performAll_quiet acts s h
  rw [show runOp b acts s = respond .ok 0x00 t by simp [runOp, hp, conclude]]
  exact ⟨rfl, htr, rfl, hc, hf, by simpa using hl⟩

/-- The events of an emitting operation's list are those computed at its start. -/
theorem eventsOf_emitting (i : Instr) (es : List Event) :
    eventsOf (emits es ++ (opWrites i).map Action.write) = es := by
  simp [eventsOf_append]

/-- The events of construct's list, after its first writes. -/
theorem eventsOf_constructBody (p : Params) (hcs hrst : Bool) (r : Rotation) (inv : Bool)
    (con rat : Nat) :
    eventsOf (constructBody p hcs hrst r inv con rat) =
      idleLevels hcs hrst ++ resetEvents p hcs hrst ++ initEvents p hcs r inv con rat := by
  simp [constructBody_split, eventsOf_append]

/-- A construct with a legal rotation is the run of its list on the new block (R123). -/
theorem exec_construct (hcs hrst : Bool) {rot : Nat} (inv : Bool) (con rat : Nat) {r : Rotation}
    {s : State} (hs : s.seq = .idle) (hrot : legalRotation rot = some r) :
    exec (.construct hcs hrst rot inv con rat) s =
      .next (runOp true (constructBody s.params hcs hrst r inv con rat)
        (newBlock hcs hrst r inv con rat s)) := by
  simp [exec, execConstruct, onPort_idle _ _ hs, hrot]

/-- A Pixel Buffer operation whose check passes emits nothing and ends OK. -/
theorem exec_pixel {i : Instr} {s : State} {es : List Event} (hr : s.ready) (hi : pixelOp i)
    (hp : planned i s = some es) :
    es = [] ∧ ∃ d m, exec i s = .next (respond .ok d { s with buf := m }) := by
  rcases hi with ⟨x, y, c, rfl⟩ | ⟨x, y, rfl⟩ | ⟨c, rfl⟩ | ⟨n, v, rfl⟩ | ⟨n, rfl⟩
  · cases hp
    refine ⟨rfl, 0x00, if onDisplay x y then putPixel s.buf x y c else s.buf, ?_⟩
    rw [exec, execSetPixel, onBlock_ready _ _ hr]
    split <;> rfl
  · by_cases hd : onDisplay x y = true <;> simp only [planned, hd, if_true, reduceCtorEq] at hp
    · cases hp
      exact ⟨rfl, _, s.buf, by rw [exec, execGetPixel, onBlock_ready _ _ hr, if_pos hd]⟩
    · cases hp
  · cases hp
    exact ⟨rfl, 0x00, _, by rw [exec, execFill, onBlock_ready _ _ hr]⟩
  · by_cases hn : n < bufLen <;> simp only [planned, hn, if_true, if_false, reduceCtorEq] at hp
    cases hp
    exact ⟨rfl, 0x00, _, by rw [exec, execBufWrite, onBlock_ready _ _ hr, if_pos hn]⟩
  · by_cases hn : n < bufLen <;> simp only [planned, hn, if_true, if_false, reduceCtorEq] at hp
    cases hp
    exact ⟨rfl, _, s.buf, by rw [exec, execBufRead, onBlock_ready _ _ hr, if_pos hn]⟩

/-- An instruction of the controller layer has no plan. -/
theorem planned_wire {i : Instr} {p : Params} {dc : Level} {bs : List Byte} (s : State)
    (h : wireBytes p i = some (dc, bs)) : planned i s = none := by
  cases i <;> simp [wireBytes] at h <;> rfl

-- The lines at rest

/-- Events that leave the chip-select and reset lines High if they were (spec/10_state.md R30). -/
def restful (es : List Event) : Prop :=
  levelAfter .cs .high es = .high ∧ levelAfter .rst .high es = .high

theorem restful_nil : restful [] := ⟨rfl, rfl⟩

theorem restful_append {es fs : List Event} (he : restful es) (hf : restful fs) :
    restful (es ++ fs) := by
  obtain ⟨ec, er⟩ := he
  obtain ⟨fc, fr⟩ := hf
  exact ⟨by rw [levelAfter_append, ec, fc], by rw [levelAfter_append, er, fr]⟩

theorem restful_flatMap {α : Type} (f : α → List Event) (xs : List α) (h : ∀ x, restful (f x)) :
    restful (xs.flatMap f) := by
  induction xs with
  | nil => exact restful_nil
  | cons x xs ih => exact restful_append (h x) ih

/-- A frame raises the chip-select line again (spec/40_command_encoder.md R85). -/
theorem restful_frame (c : Bool) (dc : Level) (bs : List Byte) : restful (frame c dc bs) := by
  cases c <;> exact ⟨rfl, rfl⟩

theorem restful_cmdFrames (c : Bool) (bs : List Byte) : restful (cmdFrames c bs) :=
  restful_flatMap _ bs fun b => restful_frame c .low [b]

/-- The reset pulse raises the reset line again (spec/42_lifecycle.md R124). -/
theorem restful_resetEvents (p : Params) (c r : Bool) : restful (resetEvents p c r) := by
  refine restful_append ?_ (restful_cmdFrames c _)
  cases r <;> exact ⟨rfl, rfl⟩

theorem restful_idleLevels (c r : Bool) : restful (idleLevels c r) := by
  cases c <;> cases r <;> exact ⟨rfl, rfl⟩

theorem restful_presentEvents (p : Params) (c : Bool) (off : BitVec 8) (m : Memory) :
    restful (presentEvents p c off m) :=
  restful_flatMap _ _ fun _ => restful_append (restful_cmdFrames c _) (restful_frame c .high _)

/-- An emitting operation's plan leaves the lines at rest. -/
theorem restful_planned {i : Instr} {s : State} {es : List Event} (hi : emitting i = true)
    (hp : planned i s = some es) : restful es := by
  cases i <;> simp only [emitting, reduceCtorEq] at hi <;>
    simp only [planned, Option.ite_none_right_eq_some, Option.map_eq_some_iff,
      Option.some.injEq] at hp
  case reset => subst hp; exact restful_resetEvents _ _ _
  case initialise => obtain ⟨_, r, _, rfl⟩ := hp; exact restful_cmdFrames _ _
  case present => obtain ⟨_, rfl⟩ := hp; exact restful_presentEvents _ _ _ _
  case setContrast => obtain ⟨_, rfl⟩ := hp; exact restful_cmdFrames _ _
  case setInverted => obtain ⟨_, rfl⟩ := hp; exact restful_cmdFrames _ _
  case setRotation => obtain ⟨_, r, _, rfl⟩ := hp; exact restful_cmdFrames _ _
  case setSleeping => obtain ⟨_, rfl⟩ := hp; exact restful_cmdFrames _ _

/-- The lines are at rest and no failure is to come. -/
def calm (s : State) : Prop := s.linesIdle ∧ s.failures = []

/-- An accepted run of events that leave the lines at rest. -/
theorem calm_runOp (b : Bool) (acts : List Action) {s : State} (hr : restful (eventsOf acts))
    (h : calm s) : calm (runOp b acts s) := by
  obtain ⟨⟨hcs, hrst⟩, hf⟩ := h
  obtain ⟨-, -, -, -, hf', hl⟩ := runOp_accepted b acts s (by rw [hf]; rfl)
  have hc : (runOp b acts s).csLvl = levelAfter .cs s.csLvl (eventsOf acts) := hl .cs
  have hk : (runOp b acts s).rstLvl = levelAfter .rst s.rstLvl (eventsOf acts) := hl .rst
  rw [hcs, hr.1] at hc
  rw [hrst, hr.2] at hk
  exact ⟨⟨hc, hk⟩, by rw [hf', hf]; rfl⟩

theorem calm_raiseError (e : Status) {s : State} (h : calm s) : calm (raiseError e s) := h

/-- A host operation or a reserved word keeps the lines at rest while no emission fails. -/
theorem calm_exec {i : Instr} {s t : State} (hw : ∀ dc bs, wireBytes s.params i ≠ some (dc, bs))
    (h : calm s) (hx : exec i s = .next t) : calm t := by
  rcases instr_kinds i s.params with ⟨hcs, hrst, rot, inv, con, rat, rfl⟩ | he | hp | hr | ⟨dc, bs, hb⟩
  · obtain ⟨hs, rfl⟩ := onPort_next hx
    cases hrot : legalRotation rot with
    | none => exact calm_raiseError _ h
    | some r =>
      refine calm_runOp true _ ?_ ⟨⟨rfl, rfl⟩, h.2⟩
      rw [eventsOf_constructBody]
      exact restful_append (restful_append (restful_idleLevels _ _) (restful_resetEvents _ _ _))
        (restful_cmdFrames _ _)
  · have hr := emitting_next_ready he hx
    cases hp : planned i s with
    | none =>
      obtain ⟨e, -, hx'⟩ := exec_emitting_error i s hr he hp
      cases hx.symm.trans hx'
      exact calm_raiseError e h
    | some es =>
      cases hx.symm.trans (exec_emitting i s es hr he hp)
      exact calm_runOp false _ (by rw [eventsOf_emitting]; exact restful_planned he hp) h
  · obtain ⟨-, rfl | ⟨d, m, rfl⟩⟩ := pixel_cases hp hx
    · exact calm_raiseError _ h
    · exact h
  · rw [reserved_next hr hx]
    exact calm_raiseError _ h
  · exact absurd hb (hw dc bs)

-- The writers of LIFE and the DeviceConfig registers

/-- What no single register write changes, none of them do. -/
theorem writeAll_keeps {α : Type} (f : State → α) (hf : ∀ w u, f (writeReg w u) = f u)
    (ws : List RegWrite) (s : State) : f (writeAll ws s) = f s := by
  induction ws generalizing s with
  | nil => rfl
  | cons w ws ih => exact (ih (writeReg w s)).trans (hf w s)

/-- Where `LIFE` or a DeviceConfig register differs after `i`, `i` is one of the register's writers
(spec/10_state.md R21) and ended OK. -/
structure ChangesOnlyByWriters (i : Instr) (s t : State) : Prop where
  life : t.life ≠ s.life → t.status = .ok ∧
    (i = .reset ∨ (∃ rot inv con rat, i = .initialise rot inv con rat) ∨ ∃ b, i = .setSleeping b)
  rot : t.rot ≠ s.rot → t.status = .ok ∧
    ((∃ rot inv con rat, i = .initialise rot inv con rat) ∨ ∃ rot, i = .setRotation rot)
  inv : t.inv ≠ s.inv → t.status = .ok ∧
    ((∃ rot inv con rat, i = .initialise rot inv con rat) ∨ ∃ b, i = .setInverted b)
  ev : t.ev ≠ s.ev → t.status = .ok ∧
    ((∃ rot inv con rat, i = .initialise rot inv con rat) ∨ ∃ v, i = .setContrast v)
  rr : t.rr ≠ s.rr → t.status = .ok ∧ ∃ rot inv con rat, i = .initialise rot inv con rat

/-- Registers that are all unchanged. -/
theorem ChangesOnlyByWriters.of_eq {i : Instr} {s t : State} (hl : t.life = s.life)
    (hr : t.rot = s.rot) (hi : t.inv = s.inv) (he : t.ev = s.ev) (hq : t.rr = s.rr) :
    ChangesOnlyByWriters i s t :=
  ⟨absurd hl, absurd hr, absurd hi, absurd he, absurd hq⟩

/-- An operation's register writes are to the registers its rule writes. -/
theorem opWrites_changes (i : Instr) (s : State) :
    ChangesOnlyByWriters i s (respond .ok 0x00 (writeAll (opWrites i) s)) := by
  cases i with
  | reset => exact ⟨fun _ => ⟨rfl, .inl rfl⟩, absurd rfl, absurd rfl, absurd rfl, absurd rfl⟩
  | initialise rot inv con rat =>
    have hi : ∃ rot' inv' con' rat',
        Instr.initialise rot inv con rat = .initialise rot' inv' con' rat' := ⟨_, _, _, _, rfl⟩
    exact ⟨fun _ => ⟨rfl, .inr (.inl hi)⟩, fun _ => ⟨rfl, .inl hi⟩, fun _ => ⟨rfl, .inl hi⟩,
      fun _ => ⟨rfl, .inl hi⟩, fun _ => ⟨rfl, hi⟩⟩
  | setContrast v =>
    exact ⟨absurd rfl, absurd rfl, absurd rfl, fun _ => ⟨rfl, .inr ⟨v, rfl⟩⟩, absurd rfl⟩
  | setInverted b =>
    exact ⟨absurd rfl, absurd rfl, fun _ => ⟨rfl, .inr ⟨b, rfl⟩⟩, absurd rfl, absurd rfl⟩
  | setRotation rot =>
    cases hrot : legalRotation rot with
    | none => simp only [opWrites, hrot]; exact .of_eq rfl rfl rfl rfl rfl
    | some r =>
      simp only [opWrites, hrot]
      exact ⟨absurd rfl, fun _ => ⟨rfl, .inr ⟨rot, rfl⟩⟩, absurd rfl, absurd rfl, absurd rfl⟩
  | setSleeping b =>
    exact ⟨fun _ => ⟨rfl, .inr (.inr ⟨b, rfl⟩)⟩, absurd rfl, absurd rfl, absurd rfl, absurd rfl⟩
  | _ => exact .of_eq rfl rfl rfl rfl rfl

/-- What an emitting operation leaves alone, whatever the collaborators do. -/
theorem emitting_frame {i : Instr} {s t : State} (hi : emitting i = true) (h : exec i s = .next t) :
    t.params = s.params ∧ t.constructed = true ∧ t.hasCs = s.hasCs ∧ t.hasRst = s.hasRst ∧
      t.buf = s.buf ∧ t.requests = s.requests ∧ t.seq = .idle ∧ t.rdata = 0x00 ∧
      ∃ es, t.trace = s.trace ++ es := by
  obtain ⟨-, hc⟩ := emitting_next_ready hi h
  obtain ⟨e, -, rfl, -⟩ | ⟨es, n, c, d, r, fs, -, ⟨-, rfl⟩ | rfl⟩ := emitting_cases hi h
  · exact ⟨rfl, hc, rfl, rfl, rfl, rfl, rfl, rfl, [], (List.append_nil _).symm⟩
  · exact ⟨writeAll_keeps State.params writeReg_params _ _,
      (writeAll_keeps State.constructed writeReg_constructed _ _).trans hc,
      writeAll_keeps State.hasCs writeReg_hasCs _ _, writeAll_keeps State.hasRst writeReg_hasRst _ _,
      writeAll_keeps State.buf writeReg_buf _ _, writeAll_keeps State.requests writeReg_requests _ _,
      rfl, rfl, es, writeAll_keeps State.trace writeReg_trace _ _⟩
  · exact ⟨rfl, by simp [hc], rfl, rfl, rfl, rfl, rfl, rfl, _, rfl⟩

/-- An emitting operation changes `LIFE` and DeviceConfig only as a listed writer that ends OK. -/
theorem emitting_writers {i : Instr} {s t : State} (hi : emitting i = true) (h : exec i s = .next t) :
    ChangesOnlyByWriters i s t := by
  obtain ⟨e, -, rfl, -⟩ | ⟨es, n, c, d, r, fs, -, ⟨-, rfl⟩ | rfl⟩ := emitting_cases hi h
  · exact .of_eq rfl rfl rfl rfl rfl
  · obtain ⟨hlife, hrot, hinv, hev, hrr⟩ := opWrites_changes i
      { s with trace := s.trace ++ es, csLvl := c, dcLvl := d, rstLvl := r, failures := fs }
    exact ⟨hlife, hrot, hinv, hev, hrr⟩
  · exact .of_eq rfl rfl rfl rfl rfl

/-- Of the emitting operations on a block only reset drives the reset line (R124). -/
theorem emitting_keeps_rstLvl {i : Instr} {s t : State} (hi : emitting i = true) (hne : i ≠ .reset)
    (h : exec i s = .next t) : t.rstLvl = s.rstLvl := by
  have hr := emitting_next_ready hi h
  cases hp : planned i s with
  | none =>
    obtain ⟨e, -, hx⟩ := exec_emitting_error i s hr hi hp
    cases h.symm.trans hx
    rfl
  | some es =>
    cases h.symm.trans (exec_emitting i s es hr hi hp)
    exact runOp_level .rst false es (opWrites i) s (plan_rst hi hp (.inl hne))

/-- A Pixel Buffer operation changes the buffer only if it is one that stores, and ends OK. -/
theorem pixel_buf_writers {i : Instr} {s t : State} (hi : pixelOp i) (h : exec i s = .next t)
    (hb : t.buf ≠ s.buf) :
    t.status = .ok ∧
      ((∃ x y c, i = .setPixel x y c) ∨ (∃ c, i = .fill c) ∨ ∃ n v, i = .bufWrite n v) := by
  have hok : t.status = .ok := by
    obtain ⟨-, rfl | ⟨d, m, rfl⟩⟩ := pixel_cases hi h
    · exact absurd rfl hb
    · rfl
  refine ⟨hok, ?_⟩
  rcases hi with hi | ⟨x, y, rfl⟩ | hi | hi | ⟨n, rfl⟩
  · exact .inl hi
  · obtain ⟨-, rfl⟩ := onBlock_next h
    split at hb <;> exact absurd rfl hb
  · exact .inr (.inl hi)
  · exact .inr (.inr hi)
  · obtain ⟨-, rfl⟩ := onBlock_next h
    split at hb <;> exact absurd rfl hb

/-- An instruction other than construct keeps the straps and the parameters, writes `LIFE` and
DeviceConfig only as a listed writer, and the buffer only as a Pixel Buffer operation. -/
theorem exec_writers {i : Instr} {s t : State} (h : exec i s = .next t)
    (hne : ∀ hcs hrst rot inv con rat, i ≠ .construct hcs hrst rot inv con rat) :
    t.hasCs = s.hasCs ∧ t.hasRst = s.hasRst ∧ t.params = s.params ∧ ChangesOnlyByWriters i s t ∧
      (t.buf ≠ s.buf → pixelOp i) := by
  rcases instr_kinds i s.params with ⟨_, _, _, _, _, _, hi⟩ | he | hp | hr | ⟨dc, bs, hw⟩
  · exact absurd hi (hne _ _ _ _ _ _)
  · obtain ⟨hpar, -, hcs, hrst, hbuf, -⟩ := emitting_frame he h
    exact ⟨hcs, hrst, hpar, emitting_writers he h, absurd hbuf⟩
  · obtain ⟨-, rfl | ⟨d, m, rfl⟩⟩ := pixel_cases hp h <;>
      exact ⟨rfl, rfl, rfl, .of_eq rfl rfl rfl rfl rfl, fun _ => hp⟩
  · rw [reserved_next hr h]
    exact ⟨rfl, rfl, rfl, .of_eq rfl rfl rfl rfl rfl, absurd rfl⟩
  · rw [exec_wire hw] at h
    obtain ⟨-, rfl⟩ := onWire_next h
    obtain ⟨n, c, d, r, fs, ⟨-, ht⟩ | ⟨b, ht⟩⟩ :=
      runPart_cases (bs.flatMap fun x => frame s.hasCs dc [x]) s <;>
    · rw [ht]
      exact ⟨rfl, rfl, rfl, .of_eq rfl rfl rfl rfl rfl, absurd rfl⟩

-- The sequencer

@[simp] theorem advance_nil (b : Bool) (x : Sent) : advance [] b x = conclude b x := by
  cases x <;> rfl

/-- A list taken one entry a step is the whole operation (R30, spec/70_reset_and_hazards.md R202). -/
theorem ticks_beginOp (b : Bool) (acts : List Action) (s : State) (ha : acts ≠ []) :
    ticks acts.length (beginOp b acts s) = runOp b acts s := by
  simpa [beginOp, runOp] using ticks_part acts [] b s ha

theorem emit_constructed (e : Event) (s : State) : (emit e s).state.constructed = s.constructed := by
  obtain ⟨c, d, r, fs, h⟩ := emit_cases e s
  rw [h]

/-- No action makes or removes a block. -/
theorem performAll_constructed (acts : List Action) (s : State) :
    (performAll acts s).state.constructed = s.constructed := by
  induction acts generalizing s with
  | nil => rfl
  | cons a acts ih =>
    cases a with
    | write w => exact (ih (writeReg w s)).trans (writeReg_constructed w s)
    | emit e =>
      have he := emit_constructed e s
      simp only [performAll, perform]
      cases hs : emit e s with
      | accepted t => rw [hs] at he; exact (ih t).trans he
      | failed t => rw [hs] at he; exact he

/-- An operation is the operation of the rest of its list once a front part is accepted. -/
theorem runOp_append_accepted (b : Bool) {as : List Action} (rest : List Action) {s t : State}
    (h : performAll as s = .accepted t) : runOp b (as ++ rest) s = runOp b rest t := by
  simp [runOp, performAll_append, h]

/-- A failure in the front part of its list ends an operation. -/
theorem runOp_append_failed (b : Bool) {as : List Action} (rest : List Action) {s t : State}
    (h : performAll as s = .failed t) : runOp b (as ++ rest) s = transportFailure b t := by
  simp [runOp, performAll_append, h, conclude]

/-- In a block the machine's own steps lead from an operation's list taken up to the state the whole
operation gives: each takes a front part of the list. -/
theorem stepsTo_runOp (b : Bool) (acts : List Action) (s : State) (ha : acts ≠ [])
    (hc : s.constructed = true) :
    ∃ n, n ≤ acts.length ∧ stepsTo n (beginOp b acts s) (runOp b acts s) := by
  obtain ⟨as, rest, has, hsplit, hstep⟩ :=
    step_busy_part (s := beginOp b acts s) (beginOp_seq b acts s) hc ha
  have hlt : rest.length < acts.length := by
    have := List.length_pos_of_ne_nil has
    rw [hsplit, List.length_append]
    omega
  rw [beginOp, performAll_seq] at hstep
  have hkeep := performAll_constructed as s
  cases hp : performAll as s with
  | failed t =>
    rw [hp] at hstep
    refine ⟨1, by omega, _, hstep, ?_⟩
    rw [hsplit, runOp_append_failed b rest hp]
    rfl
  | accepted t =>
    rw [hp] at hstep hkeep
    have hrun : runOp b acts s = runOp b rest t := by rw [hsplit, runOp_append_accepted b rest hp]
    rw [hrun]
    cases rest with
    | nil => exact ⟨1, by omega, _, hstep, rfl⟩
    | cons a rest =>
      obtain ⟨n, hn, hsteps⟩ := stepsTo_runOp b (a :: rest) t (List.cons_ne_nil _ _) (hkeep.trans hc)
      exact ⟨n + 1, by omega, _, hstep, hsteps⟩
termination_by acts.length

-- The controller instruction in front of the sequencer

/-- A command of two bytes is a prefix byte and its operand (spec/30_encoding.md R75). -/
theorem decodeCommand_operand {b o : Byte} {rest : List Byte} {i : Instr}
    (h : decodeCommand b (o :: rest) = .ok (i, [])) :
    rest = [] ∧ ∃ m, decodeCommand b [] = .error (.missingOperand m) := by
  have hop : ∀ (w : Nat) (m : String) (f : Nat → Instr),
      (∀ bs, decodeCommand b bs = decodeOperand bs w m f) →
      rest = [] ∧ ∃ m, decodeCommand b [] = .error (.missingOperand m) := by
    intro w m f hf
    rw [hf] at h
    obtain ⟨o', ho, -⟩ := decodeOperand_ok h
    exact ⟨(List.cons.inj ho).2, m, hf []⟩
  obtain ⟨r, hr⟩ | hf | hf := decodeCommand_shape b
  · rw [hr] at h
    cases r <;> cases h
  · exact hop 6 "SETEV" _ hf
  · exact hop 1 "SETBOOSTER" _ hf

/-- What decodes whole leaves no byte over. -/
theorem decode_wire_ok {dc : Level} {bs : List Byte} {i : Instr} (h : decode (.wire dc bs) = .ok i) :
    decodeWire dc bs = .ok (i, []) := by
  simp only [decode] at h
  split at h <;> cases h
  assumption

/-- Bytes that decode to one instruction are one byte, or a prefix byte and its operand. -/
theorem decode_wire_cases {dc : Level} {bs : List Byte} {i : Instr}
    (h : decode (.wire dc bs) = .ok i) :
    (∃ b, bs = [b]) ∨
      ∃ b o m, bs = [b, o] ∧ decode (.wire dc [b]) = .error (.missingOperand m) := by
  have hw := decode_wire_ok h
  match dc, bs with
  | .low, [] => cases hw
  | .high, [] => cases hw
  | _, [b] => exact .inl ⟨b, rfl⟩
  | .high, _ :: _ :: _ => cases hw
  | .low, b :: o :: rest =>
    obtain ⟨rfl, m, hm⟩ := decodeCommand_operand (rest := rest) hw
    exact .inr ⟨b, o, m, rfl, by simp only [decode, decodeWire, hm]⟩

/-- The instruction whose frames stand in front of a list is the one taken from it. -/
theorem takeWire_frames (c : Bool) {dc : Level} {bs : List Byte} {i : Instr} (rest : List Action)
    (h : decode (.wire dc bs) = .ok i) :
    takeWire c (emits (bs.flatMap fun x => frame c dc [x]) ++ rest) = some (i, dc, bs, rest) := by
  obtain ⟨b, rfl⟩ | ⟨b, o, m, rfl, hm⟩ := decode_wire_cases h
  · simp [takeWire, takeFrame_frame, h]
  · have hsplit : emits ([b, o].flatMap fun x => frame c dc [x]) ++ rest =
        emits (frame c dc [b]) ++ (emits (frame c dc [o]) ++ rest) := by simp [emits]
    rw [hsplit]
    simp [takeWire, takeFrame_frame, h, hm]

/-- The sequencer stands before the instruction whose frames are in front. -/
theorem nextCommand_frames {s : State} {i : Instr} {dc : Level} {bs : List Byte} {rest : List Action}
    {b : Bool} (hs : s.seq = .busy (emits (bs.flatMap fun x => frame s.hasCs dc [x]) ++ rest) b)
    (hd : decode (.wire dc bs) = .ok i) (hw : wireBytes s.params i = some (dc, bs)) :
    nextCommand s = some (i, { s with seq := .busy rest b }) := by
  simp [nextCommand, hs, takeWire_frames s.hasCs rest hd, hw]

-- The obligations

/-- Settles O13: the meanings that need a block run through `onBlock` or `onWire`, and `step` admits none
of their requests. -/
theorem noBlockNoRegisters : Obligations.NoBlockNoRegisters := by
  intro s hc hs
  refine ⟨fun i hi => exec_noBlock hs hc hi, fun w rest i hreq hd hi => ?_⟩
  have hadm : admitted i s = false := by simp [admitted, hc, hi]
  simp [step, hs, hreq, hd, hadm]

/-- Settles O27: a setRotation that ends OK has written `ROT` and kept the parameters. -/
theorem columnOffsetFollowsRotation : Obligations.ColumnOffsetFollowsRotation := by
  refine ⟨fun s => by unfold colOff; cases s.rot <;> rfl, fun rot r s t hrot h hok => ?_⟩
  have hwrites : opWrites (.setRotation rot) = [.rot r] := by simp [opWrites, hrot]
  obtain ⟨e, he, rfl, -⟩ | ⟨es, n, c, d, k, fs, -, ⟨-, rfl⟩ | rfl⟩ := emitting_cases rfl h
  · obtain rfl | rfl := he <;> cases hok
  · rw [hwrites]
    cases r <;> rfl
  · cases hok

/-- Settles O47: construct and the emitting operations are runs of lists with the planned events, and the
Pixel Buffer operations plan none. -/
theorem acceptedOperationEmitsItsPlan : Obligations.AcceptedOperationEmitsItsPlan := by
  intro i s es hr hp hq
  rcases instr_kinds i s.params with ⟨hcs, hrst, rot, inv, con, rat, rfl⟩ | he | hx | hx | ⟨dc, bs, hw⟩
  · obtain ⟨r, hrot, hes⟩ := Option.map_eq_some_iff.1 hp
    rw [← eventsOf_constructBody] at hes
    subst hes
    obtain ⟨hst, htr, hseq, hc, hf, -⟩ := runOp_accepted true _ (newBlock hcs hrst r inv con rat s) hq
    exact ⟨_, exec_construct hcs hrst inv con rat hr.1 hrot, hst, htr, hseq, hc, hf⟩
  · rw [← eventsOf_emitting i es] at hq
    obtain ⟨hst, htr, hseq, hc, hf, -⟩ := runOp_accepted false _ s hq
    rw [eventsOf_emitting] at htr hf
    exact ⟨_, exec_emitting i s es hr he hp, hst, htr, hseq, hc.trans hr.2, hf⟩
  · obtain ⟨rfl, d, m, h⟩ := exec_pixel hr hx hp
    exact ⟨_, h, rfl, (List.append_nil _).symm, rfl, hr.2, (afterQuiet_zero _).symm⟩
  · rcases hx with ⟨_, rfl⟩ | ⟨_, rfl⟩ <;> cases hp
  · cases (planned_wire s hw).symm.trans hp

/-- Settles O50: the frame of the emitting operations, their register writes and the line they drive. -/
theorem emittingOperationsFrame : Obligations.EmittingOperationsFrame := by
  intro i s t h hi
  have he : emitting i = true := by
    rcases hi with rfl | rfl | ⟨_, _, _, _, rfl⟩ | ⟨_, rfl⟩ | ⟨_, rfl⟩ | ⟨_, rfl⟩ | ⟨_, rfl⟩ <;> rfl
  obtain ⟨hpar, hc, hcs, hrst, hbuf, hreq, hseq, hrd, htr⟩ := emitting_frame he h
  obtain ⟨hlife, hrot, hinv, hev, hrr⟩ := emitting_writers he h
  refine ⟨hpar, hc, hcs, hrst, hbuf, fun a => by rw [hbuf], hreq, hseq, hrd, htr,
    fun hne => (hlife hne).2, fun hne => (hrot hne).2, fun hne => (hinv hne).2,
    fun hne => (hev hne).2, fun hne => (hrr hne).2, fun hne => ?_⟩
  by_contra hreset
  exact hne (emitting_keeps_rstLvl he hreset h)

/-- Settles O56: a step from Idle waits, answers ILLEGAL, or runs a host operation, whose plan leaves the
lines at rest. -/
theorem linesAreIdleBetweenOperations : Obligations.LinesAreIdleBetweenOperations := by
  intro s t hinv hl hf h
  have hcalm : calm s := ⟨hl, hf⟩
  obtain rfl | ⟨w, rest, -, ⟨-, rfl⟩ | ⟨i, hd, hx⟩⟩ := step_idle_cases hinv.idle h
  · exact hcalm
  · exact hcalm
  · refine calm_exec (fun dc bs hw => ?_) (s := popRequest rest s) hcalm hx
    cases (request_not_wire hd).symm.trans hw

/-- Settles O58: LIFE and DeviceConfig change only by the emitting operations' writes, the buffer only by
the storing Pixel Buffer operations. -/
theorem registerWriters : Obligations.RegisterWriters := by
  intro i s t h _ hne
  obtain ⟨hcs, hrst, hpar, ⟨hlife, hrot, hinv, hev, hrr⟩, hbuf⟩ := exec_writers h hne
  exact ⟨hcs, hrst, hpar, hlife, hrr, hrot, hinv, hev,
    fun hne => pixel_buf_writers (hbuf hne) h hne⟩

/-- Settles O59: `ticks_part` over the whole list, and steps that each take a front part of it. -/
theorem sequencerStepsAreTheOperation : Obligations.SequencerStepsAreTheOperation :=
  ⟨fun b acts s ha => ⟨ticks_beginOp b acts s ha, stepsTo_runOp b acts s ha⟩,
    fun _ hs h => step_busy_tick hs h⟩

/-- Settles O60: the list is the planned events and then the operation's register writes; only the
emitting operations plan an event. -/
theorem operationIsSequencerRun : Obligations.OperationIsSequencerRun := by
  intro i s es hr hp hes hne
  rcases instr_kinds i s.params with ⟨_, _, _, _, _, _, hi⟩ | he | hx | hx | ⟨dc, bs, hw⟩
  · exact absurd hi (hne _ _ _ _ _ _)
  · have hevents := eventsOf_emitting i es
    refine ⟨_, hevents, ?_⟩
    rw [ticks_beginOp, exec_emitting i s es hr he hp]
    intro hnil
    rw [hnil] at hevents
    exact hes hevents.symm
  · exact absurd (exec_pixel hr hx hp).1 hes
  · rcases hx with ⟨_, rfl⟩ | ⟨_, rfl⟩ <;> cases hp
  · cases (planned_wire s hw).symm.trans hp

/-- Settles O11: the frames in front are those of the instruction that `step` takes. -/
theorem stepRunsCommand : Obligations.StepRunsCommand := by
  intro s i dc bs rest b hs hd hw
  cases hx : exec i { s with seq := .busy rest b } <;>
    simp only [step, hs, nextCommand_frames hs hd hw, hx]

/-- Settles O17: each register of `State.reset` by its definition. -/
theorem resetRegisters : Obligations.ResetRegisters :=
  ⟨rfl, rfl, rfl, rfl, rfl, rfl, rfl, rfl, rfl, rfl, rfl, rfl, fun _ => rfl, rfl, rfl, rfl⟩

/-- Settles O54: the reset state is a good one, and power-on differs from it in no field that the
invariant reads of a state without a block. -/
theorem resetStateIsGood : Obligations.ResetStateIsGood := by
  have hpar : Params.legal defaultParams = true := by decide
  exact ⟨⟨hpar, rfl, rfl, by decide, by decide, by decide⟩,
    ⟨hpar, rfl, rfl, by decide, by decide, by decide⟩⟩

end Sys2Proof.Machine

/-!
SUPPORT. The proof of the family of spec/20_memory.md, after what it shares with the other Pixel Buffer
claims: the place of a pixel, the buffer bit by bit after a write of one pixel, and the runs of setPixel
and getPixel on the display.
-/

namespace Sys2Proof.Machine

/-- Two pixels of the display's columns have the same byte and bit only if they are the same pixel
(spec/20_memory.md R45). -/
theorem pixelPlace_eq_iff {x y x' y' : Nat} (hx : x < 128) (hx' : x' < 128) :
    (pixelIndex x' y' = pixelIndex x y ∧ pixelBit y' = pixelBit y) ↔ (x' = x ∧ y' = y) := by
  simp only [pixelIndex, pageOf, pixelBit, dispW]
  omega

theorem pixelBit_lt (y : Nat) : pixelBit y < 8 := Nat.mod_lt y (by decide)

/-- The buffer bit by bit after one pixel is written (spec/44_pixel_buffer.md R151). -/
theorem putPixel_bits {m : Memory} (hm : Memory.wf m = true) (x y c i : Nat) {k : Nat} (hk : k < 8) :
    (Memory.read (putPixel m x y c) i).getLsbD k =
      if i = pixelIndex x y ∧ k = pixelBit y then decide (c ≠ 0) else (Memory.read m i).getLsbD k := by
  rw [putPixel, read_write m 0 _ _ hm]
  by_cases hi : i = pixelIndex x y
  · simp only [hi, if_true, true_and, setBit_bits _ _ _ _ hk]
  · simp only [hi, if_false, false_and]

/-- A setPixel on the display writes the pixel and ends OK (R151). -/
theorem exec_setPixel_onDisplay {x y : Nat} {s : State} (c : Nat) (hr : s.ready)
    (hd : onDisplay x y = true) :
    exec (.setPixel x y c) s = .next (respond .ok 0x00 { s with buf := putPixel s.buf x y c }) := by
  rw [exec, execSetPixel, onBlock_ready _ _ hr, if_pos hd]

/-- A getPixel on the display answers the bit at the pixel's place (spec/44_pixel_buffer.md R152). -/
theorem exec_getPixel_onDisplay {x y : Nat} {s : State} (hr : s.ready) (hd : onDisplay x y = true) :
    exec (.getPixel x y) s = .next (respond .ok
      (if (Memory.read s.buf (pixelIndex x y)).getLsbD (pixelBit y) then 1 else 0) s) := by
  rw [exec, execGetPixel, onBlock_ready _ _ hr, if_pos hd, getBit_eq]

/-- Settles O40: a getPixel reads the one bit that a setPixel may have written, and different pixels have
different places. -/
theorem pixelsAreIndependent : Obligations.PixelsAreIndependent := by
  intro x y c x' y' s t hr hm hx hy hx' hy' ht
  cases (exec_setPixel_onDisplay c hr (onDisplay_iff.2 ⟨hx, hy⟩)).symm.trans ht
  have hd' : onDisplay x' y' = true := onDisplay_iff.2 ⟨hx', hy'⟩
  refine ⟨_, _, exec_getPixel_onDisplay ⟨rfl, hr.2⟩ hd', exec_getPixel_onDisplay hr hd', ?_⟩
  rw [respond_rdata, respond_rdata, respond_buf, putPixel_bits hm x y c _ (pixelBit_lt y')]
  by_cases hsame : x' = x ∧ y' = y
  · rw [if_pos ((pixelPlace_eq_iff hx hx').2 hsame), if_pos hsame]
    simp only [decide_eq_true_eq]
  · rw [if_neg (mt (pixelPlace_eq_iff hx hx').1 hsame), if_neg hsame]

end Sys2Proof.Machine

/-!
SUPPORT. The proofs of the family of spec/30_encoding.md, after what they share: request words field by
field, the formats of R66 as an operation code and reserved fields, the codes of the controller layer,
and the sending of its bytes.
-/

namespace Sys2Proof.Machine

-- Request words from an operation code and a payload

/-- The word that `requestWord` carries. -/
def opWord (op payload : Nat) : Word := BitVec.ofNat 32 (op * 2 ^ 28 + payload)

theorem decode_requestWord (op payload : Nat) :
    decode (requestWord op payload) = decodeRequest (opWord op payload) := rfl

theorem field_opWord_op {op payload : Nat} (hop : op < 16) (hp : payload < 2 ^ 28) :
    field (opWord op payload) 31 28 = op := by
  rw [field, opWord, BitVec.toNat_ofNat]
  omega

/-- A field below the operation code is a field of the payload. -/
theorem field_opWord_payload {op payload hi lo : Nat} (hp : payload < 2 ^ 28) (hhi : hi < 28) :
    field (opWord op payload) hi lo = payload / 2 ^ lo % 2 ^ (hi + 1 - lo) := by
  have hlow : payload = (opWord op payload).toNat % 2 ^ 28 := by
    rw [opWord, BitVec.toNat_ofNat]
    omega
  generalize opWord op payload = w at hlow ⊢
  subst hlow
  apply Nat.eq_of_testBit_eq
  intro i
  rw [field]
  simp only [Nat.testBit_mod_two_pow, Nat.testBit_div_two_pow]
  by_cases hi' : i < hi + 1 - lo
  · have hbit : i + lo < 28 := by omega
    simp only [hbit, decide_true, Bool.true_and]
  · simp only [hi', decide_false, Bool.false_and]

theorem bit_eq_iff {n : Nat} (v : BitVec n) (i : Nat) (b : Bool) :
    bit v i = b ↔ field v i i = b.toNat := by
  constructor
  · rintro rfl
    exact (bit_toNat v i).symm
  · intro h
    cases b <;> simp [bit, h]

theorem ifReservedZero_eq_ok_iff {reserved : Nat} {m : String} {i j : Instr} :
    ifReservedZero reserved m i = .ok j ↔ reserved = 0 ∧ i = j := by
  unfold ifReservedZero
  split <;> simp [*]

/-- Operation codes 0xE and 0xF share a row, whose operand is the other 29 bits (R70). -/
theorem decodeRequest_reservedEF {w : Word} (h : 14 ≤ field w 31 28) :
    decodeRequest w = .ok (.reservedEF (field w 28 0)) := by
  unfold decodeRequest
  split
  case h_15 => rfl
  all_goals omega

/-- A word is its operation code and its payload. -/
theorem requestWord_of_fields {w : Word} {op payload : Nat} (hop : field w 31 28 = op)
    (hp : payload = field w 27 0) : requestWord op payload = .request w := by
  subst hop hp
  rw [requestWord, Code.request.injEq]
  apply BitVec.eq_of_toNat_eq
  have := w.isLt
  simp only [BitVec.toNat_ofNat, field]
  omega

theorem requestWord_reservedEF {w : Word} (hop : 14 ≤ field w 31 28) :
    requestWord 14 (field w 28 0) = .request w := by
  rw [requestWord, Code.request.injEq]
  apply BitVec.eq_of_toNat_eq
  have := w.isLt
  simp only [BitVec.toNat_ofNat, field] at hop ⊢
  omega

-- Decoding inverts encoding, layer by layer

/-- The host rows: each field of the code's word is the operand at its place (R65 to R68). -/
theorem decode_encode_request {i : Instr} {p : Params} (hi : wireBytes p i = none)
    (hw : i.wellFormed = true) : decode (encode i) = .ok i := by
  cases i <;> simp only [wireBytes, reduceCtorEq] at hi <;> clear hi <;>
    simp only [Instr.wellFormed, Bool.and_eq_true, decide_eq_true_eq] at hw
  case reset => rfl
  case present => rfl
  case setInverted b => revert b; decide
  case setSleeping b => revert b; decide
  case construct hcs hrst rot inv con rat =>
    have := hcs.toNat_le
    have := hrst.toNat_le
    have := inv.toNat_le
    simp (disch := omega) only [encode, decode_requestWord, decodeRequest, field_opWord_op,
      field_opWord_payload, bit_eq_iff, Except.ok.injEq, Instr.construct.injEq]
    omega
  case initialise rot inv con rat =>
    have := inv.toNat_le
    simp (disch := omega) only [encode, decode_requestWord, decodeRequest, field_opWord_op,
      field_opWord_payload, bit_eq_iff, ifReservedZero_eq_ok_iff, Instr.initialise.injEq]
    omega
  case bufWrite n v =>
    have := v.isLt
    simp (disch := omega) only [encode, decode_requestWord, decodeRequest, field_opWord_op,
      field_opWord_payload, ifReservedZero_eq_ok_iff, Instr.bufWrite.injEq, ← BitVec.toNat_inj,
      BitVec.toNat_ofNat]
    omega
  case reservedEF bits =>
    have hop : 14 ≤ field (opWord 14 bits) 31 28 := by
      rw [field, opWord, BitVec.toNat_ofNat]
      omega
    rw [encode, decode_requestWord, decodeRequest_reservedEF hop, Except.ok.injEq,
      Instr.reservedEF.injEq, field, opWord, BitVec.toNat_ofNat]
    omega
  all_goals
    simp (disch := omega) only [encode, decode_requestWord, decodeRequest, field_opWord_op,
      field_opWord_payload, ifReservedZero_eq_ok_iff, Except.ok.injEq, Instr.setContrast.injEq,
      Instr.setRotation.injEq, Instr.setPixel.injEq, Instr.getPixel.injEq, Instr.fill.injEq,
      Instr.bufRead.injEq, Instr.reservedD.injEq]
    omega

/-- The rows of the controller layer: an operand of a command byte has at most 64 values (R73), and a
data byte decodes to itself (R76). -/
theorem decode_encode_wire {i : Instr} {p : Params} {dc : Level} {bs : List Byte}
    (hi : wireBytes p i = some (dc, bs)) (hw : i.wellFormed = true) : decode (encode i) = .ok i := by
  cases i <;> simp only [wireBytes, reduceCtorEq] at hi <;> clear hi <;>
    simp only [Instr.wellFormed, decide_eq_true_eq] at hw
  case collsb n => revert n; decide
  case colmsb n => revert n; decide
  case regratio r => revert r; decide
  case powerctrl vb vr vf => revert vb vr vf; decide
  case startline l => revert l; decide
  case setev e => revert e; decide
  case segdir b => revert b; decide
  case bias b => revert b; decide
  case allpix b => revert b; decide
  case inverse b => revert b; decide
  case disponoff b => revert b; decide
  case pageaddr n => revert n; decide
  case comdir b => revert b; decide
  case swreset => decide
  case setbooster b => revert b; decide
  case data d => rfl

-- The formats of R66, as an operation code and the reserved fields

/-- A value at its place in a word, its bit 0 at bit `lo`. -/
def placed (x lo : Nat) : Word := BitVec.ofNat 32 x <<< lo

theorem getLsbD_placed (x lo : Nat) {i : Nat} (h : i < 32) :
    (placed x lo).getLsbD i = (decide (lo ≤ i) && x.testBit (i - lo)) := by
  have hk : i - lo < 32 := by omega
  simp only [placed, BitVec.getLsbD_shiftLeft, BitVec.getLsbD_ofNat, h, hk, decide_true,
    Bool.true_and, ← decide_not, Nat.not_lt]

/-- The mask of the field `[hi:lo]`. -/
def fieldMask (hi lo : Nat) : Word := placed (2 ^ (hi + 1 - lo) - 1) lo

/-- A masked field is the field's value at its place. -/
theorem and_fieldMask_eq_iff (w : Word) {hi lo x : Nat} (hhi : hi < 32) (hx : x < 2 ^ (hi + 1 - lo)) :
    w &&& fieldMask hi lo = placed x lo ↔ field w hi lo = x := by
  rw [and_eq_iff, field_eq_iff w hi lo x hx]
  constructor
  · intro h i hi'
    have hbit := h (lo + i) (by omega)
    rw [fieldMask, getLsbD_placed _ _ (by omega), getLsbD_placed _ _ (by omega)] at hbit
    simpa [Nat.testBit_two_pow_sub_one, hi'] using hbit
  · intro h i hi'
    rw [fieldMask, getLsbD_placed _ _ hi', getLsbD_placed _ _ hi', Nat.testBit_two_pow_sub_one]
    by_cases hlo : lo ≤ i
    · by_cases hin : i - lo < hi + 1 - lo
      · have hbit := h (i - lo) hin
        rw [Nat.add_sub_cancel' hlo] at hbit
        simp only [hlo, hin, hbit, decide_true, Bool.and_true, Bool.true_and]
      · have hx' : x.testBit (i - lo) = false :=
          Nat.testBit_lt_two_pow (hx.trans_le (Nat.pow_le_pow_right (by decide) (by omega)))
        simp only [hin, hx', decide_false, Bool.and_false]
    · simp only [hlo, decide_false, Bool.false_and, Bool.and_false]

theorem or_and_left_self {n : Nat} (a b : BitVec n) : (a ||| b) &&& a = a := by
  ext i hi
  simpa using Or.inl

/-- A match under a mask of two parts, all of whose ones lie in the first part. -/
theorem and_or_eq_iff {n : Nat} {w a b p : BitVec n} (hp : p &&& a = p) (hab : a &&& b = 0#n) :
    w &&& (a ||| b) = p ↔ w &&& a = p ∧ w &&& b = 0#n := by
  have hpb : p &&& b = 0#n := by rw [← hp, BitVec.and_assoc, hab, BitVec.and_zero]
  constructor
  · intro h
    constructor
    · calc w &&& a = w &&& (a ||| b) &&& a := by rw [BitVec.and_assoc, or_and_left_self]
        _ = p := by rw [h, hp]
    · calc w &&& b = w &&& (b ||| a) &&& b := by rw [BitVec.and_assoc, or_and_left_self]
        _ = 0#n := by rw [BitVec.or_comm, h, hpb]
  · rintro ⟨ha, hb⟩
    rw [BitVec.and_or_distrib_left, ha, hb, BitVec.or_zero]

/-- The mask of a list of fields. -/
def fieldsMask (fs : List (Nat × Nat)) : Word := fs.foldr (fun f m => fieldMask f.1 f.2 ||| m) 0

theorem and_fieldsMask_eq_zero_iff (w : Word) {fs : List (Nat × Nat)} (h : ∀ f ∈ fs, f.1 < 32) :
    w &&& fieldsMask fs = 0 ↔ ∀ f ∈ fs, field w f.1 f.2 = 0 := by
  induction fs with
  | nil => simp [fieldsMask]
  | cons f fs ih =>
    obtain ⟨hf, hfs⟩ := List.forall_mem_cons.1 h
    have hz : w &&& fieldMask f.1 f.2 = 0 ↔ field w f.1 f.2 = 0 := by
      simpa [placed] using and_fieldMask_eq_iff w hf (x := 0) (by positivity)
    rw [List.forall_mem_cons, ← ih hfs, ← hz, fieldsMask, List.foldr_cons,
      BitVec.and_or_distrib_left]
    exact BitVec.or_eq_zero_iff

/-- The formats of R66: each operation code of R68 with the reserved fields of its word. -/
def hostRows : List (Nat × List (Nat × Nat)) :=
  [(0, []), (1, [(27, 0)]), (2, [(27, 26)]), (3, [(27, 0)]), (4, [(27, 8)]), (5, [(27, 1)]),
    (6, [(27, 9)]), (7, [(27, 1)]), (8, [(27, 24), (7, 1)]), (9, [(27, 24), (7, 0)]),
    (10, [(27, 1)]), (11, [(27, 26), (15, 8)]), (12, [(27, 26), (15, 0)])]

/-- The match and mask of a format. -/
def rowFormat (r : Nat × List (Nat × Nat)) : Word × Word :=
  (placed r.1 28, fieldMask 31 28 ||| fieldsMask r.2)

theorem hostFormats_eq_map : hostFormats = hostRows.map rowFormat := by decide

/-- The operation code is in its field, and no reserved field reaches into that one. -/
theorem hostRows_fields : ∀ r ∈ hostRows,
    r.1 < 2 ^ 4 ∧ (∀ f ∈ r.2, f.1 < 32) ∧ placed r.1 28 &&& fieldMask 31 28 = placed r.1 28 ∧
      fieldMask 31 28 &&& fieldsMask r.2 = 0 := by decide

/-- The word has the format's operation code and zeros in its reserved fields. -/
def fitsRow (w : Word) (r : Nat × List (Nat × Nat)) : Prop :=
  field w 31 28 = r.1 ∧ ∀ f ∈ r.2, field w f.1 f.2 = 0

theorem fits_hostFormats_iff (w : Word) :
    (∃ f ∈ hostFormats, w &&& f.2 = f.1) ↔ ∃ r ∈ hostRows, fitsRow w r := by
  have hrow : ∀ r ∈ hostRows, w &&& (rowFormat r).2 = (rowFormat r).1 ↔ fitsRow w r := by
    intro r hr
    obtain ⟨hop, hres, hin, hdisjoint⟩ := hostRows_fields r hr
    exact (and_or_eq_iff hin hdisjoint).trans
      (and_congr (and_fieldMask_eq_iff w (by decide) hop) (and_fieldsMask_eq_zero_iff w hres))
  simp only [hostFormats_eq_map, List.mem_map, exists_exists_and_eq_and]
  exact exists_congr fun r => and_congr_right (hrow r)

/-- The words that decode to an operation are those of a format (R66, R68, R70). -/
theorem decodeRequest_operation_iff (w : Word) :
    (∃ i, decodeRequest w = .ok i ∧ (∀ b, i ≠ .reservedD b) ∧ ∀ b, i ≠ .reservedEF b) ↔
      ∃ f ∈ hostFormats, w &&& f.2 = f.1 := by
  rw [fits_hostFormats_iff]
  constructor
  · rintro ⟨i, h, hD, hEF⟩
    unfold decodeRequest at h
    split at h <;> simp only [ifReservedZero_eq_ok_iff, Except.ok.injEq] at h
    case h_14 => exact absurd h.symm (hD _)
    case h_15 => exact absurd h.symm (hEF _)
    case h_1 hop => exact ⟨(0, []), by simp [hostRows], hop, by simp⟩
    all_goals
      rename_i hop
      simpa [hostRows, fitsRow, hop, -Prod.forall] using h.1
  · rintro ⟨r, hr, hop, hres⟩
    simp only [hostRows, List.mem_cons, List.not_mem_nil, or_false] at hr
    rcases hr with rfl | rfl | rfl | rfl | rfl | rfl | rfl | rfl | rfl | rfl | rfl | rfl | rfl <;>
      simp_all [decodeRequest, ifReservedZero]

-- Requests that are no operation

/-- The error entry where no operation runs writes the response only (R70). -/
theorem raiseError_idle (e : Status) {s : State} (hs : s.seq = .idle) :
    raiseError e s = { s with status := e, rdata := 0x00 } := by
  rw [raiseError, respond, ← hs]

theorem step_undecoded {s : State} {w : Word} {rest : List Word} {e : DecodeError}
    (hs : s.seq = .idle) (hreq : s.requests = w :: rest) (hd : decodeRequest w = .error e) :
    step s = .next { s with requests := rest, status := .illegal, rdata := 0x00 } := by
  have hstep : step s = .next (raiseError .illegal (popRequest rest s)) := by
    simp only [step, hs, hreq, hd]
  rw [hstep, raiseError_idle .illegal (s := popRequest rest s) hs]
  rfl

-- The bytes of the controller layer and their sending

/-- The truncation of R88, as a byte. -/
theorem setWidth_trunc (k v : Nat) : (BitVec.ofNat k v).setWidth 8 = BitVec.ofNat 8 (v % 2 ^ k) := by
  apply BitVec.eq_of_toNat_eq
  simp

/-- The controller layer sends command bytes, or one data byte. -/
theorem wireBytes_cases {p : Params} {i : Instr} {dc : Level} {bs : List Byte}
    (h : wireBytes p i = some (dc, bs)) :
    (dc = .low ∧ bs ≠ []) ∨ ∃ d, dc = .high ∧ bs = [d] := by
  cases i <;> simp only [wireBytes, reduceCtorEq, Option.some.injEq, Prod.mk.injEq] at h <;>
    obtain ⟨rfl, rfl⟩ := h
  case data d => exact .inr ⟨d, rfl, rfl⟩
  all_goals exact .inl ⟨rfl, List.cons_ne_nil _ _⟩

/-- The state after the accepted frames of an instruction of the controller layer (R85, R103). -/
theorem delivered_wire {s : State} {i : Instr} {dc : Level} {bs : List Byte} {es : List Event}
    (h : wireBytes s.params i = some (dc, bs))
    (hes : es = bs.flatMap fun b => frame s.hasCs dc [b]) :
    delivered es s = { s with
      csLvl := if s.hasCs then .high else s.csLvl, dcLvl := dc, trace := s.trace ++ es,
      failures := afterQuiet (emissions es) s.failures } := by
  obtain ⟨rfl, hne⟩ | ⟨d, rfl, rfl⟩ := wireBytes_cases h
  · obtain rfl : es = cmdFrames s.hasCs bs := hes
    rw [delivered_cmdFrames _ _ s hne, emissions_cmdFrames]
  · subst hes
    simp [delivered]

theorem rst_not_in_frames (c : Bool) (dc : Level) (bs : List Byte) (v : Level) :
    Event.setLine .rst v ∉ bs.flatMap fun b => frame c dc [b] := by
  cases c <;> simp [frame]

-- The response word

theorem responseWord_toNat (s : State) :
    (responseWord s).toNat = (statusCode s.status).toNat * 256 + s.rdata.toNat := by
  rw [responseWord, BitVec.toNat_append, BitVec.toNat_append,
    ← Nat.shiftLeft_add_eq_or_of_lt s.rdata.isLt]
  simp [Nat.shiftLeft_eq]

theorem statusCode_lt (st : Status) : (statusCode st).toNat < 5 := by cases st <;> decide

-- The obligations

/-- Settles O1: a host row's operands are the fields of its word, and the controller layer's rows are
finite tables. -/
theorem decodeInvertsEncode : Obligations.DecodeInvertsEncode := by
  intro i hw
  cases hi : wireBytes defaultParams i with
  | none => exact decode_encode_request hi hw
  | some code => exact decode_encode_wire hi hw

/-- Settles O2: in each row the operands are fields, so they fit, and with the reserved fields at zero
they make up the whole payload. -/
theorem requestWordsAreCodes : Obligations.RequestWordsAreCodes := by
  intro w i h
  have hlow : w.toNat % 2 ≤ 1 := Nat.lt_succ_iff.1 (Nat.mod_lt _ two_pos)
  unfold decodeRequest at h
  split at h
  case h_1 hop =>
    cases h
    exact ⟨by simp [Instr.wellFormed, field, Nat.mod_lt],
      requestWord_of_fields hop (by simp only [bit_toNat, field]; omega)⟩
  case h_14 hop =>
    cases h
    exact ⟨by simp [Instr.wellFormed, field, Nat.mod_lt], requestWord_of_fields hop rfl⟩
  case h_15 =>
    cases h
    have hop : 14 ≤ field w 31 28 := by
      simp only [imp_false] at *
      omega
    exact ⟨by simp [Instr.wellFormed, field, Nat.mod_lt], requestWord_reservedEF hop⟩
  all_goals
    rename_i hop
    obtain ⟨hres, rfl⟩ := ifReservedZero_eq_ok_iff.1 h
    refine ⟨?_, requestWord_of_fields hop ?_⟩
    · simp [Instr.wellFormed, field, Nat.mod_lt, hlow]
    · simp only [bit_toNat, BitVec.toNat_ofNat, field] at hres ⊢
      omega

/-- Settles O5: the words of the formats are those that decode to an operation. -/
theorem legalWordDecodesToOperation : Obligations.LegalWordDecodesToOperation := fun w h =>
  (decodeRequest_operation_iff w).2 h

/-- Settles O6: no operation runs, so only the response is written. -/
theorem reservedCodesAreIllegal : Obligations.ReservedCodesAreIllegal := by
  intro bits s hs
  have h : onPort s (raiseError .illegal s) = .next { s with status := .illegal, rdata := 0x00 } := by
    rw [onPort_idle s _ hs, raiseError_idle .illegal hs]
  exact ⟨h, h⟩

/-- Settles O10: `step` in the case of an Idle state, a waiting word that decodes, and an admitted
operation. -/
theorem stepRunsRequest : Obligations.StepRunsRequest := by
  intro s w rest i hs hreq hd ha
  simp only [step, hs, hreq, hd, ha, if_true, popRequest]

/-- Settles O4: such a word decodes to nothing, or to a reserved row, which `step` admits in any
state. -/
theorem illegalWordIsAnsweredIllegal : Obligations.IllegalWordIsAnsweredIllegal := by
  intro s w rest hs hreq hno
  cases hd : decodeRequest w with
  | error e => exact step_undecoded hs hreq hd
  | ok i =>
    have hreserved : (∃ b, i = .reservedD b) ∨ ∃ b, i = .reservedEF b := by
      by_contra hr
      obtain ⟨hD, hEF⟩ := not_or.1 hr
      obtain ⟨f, hf, hfit⟩ := (decodeRequest_operation_iff w).1
        ⟨i, hd, not_exists.1 hD, not_exists.1 hEF⟩
      exact hno f hf hfit
    rcases hreserved with ⟨b, rfl⟩ | ⟨b, rfl⟩
    · rw [stepRunsRequest s w rest _ hs hreq hd (Bool.or_true _)]
      exact (reservedCodesAreIllegal b { s with requests := rest } hs).1
    · rw [stepRunsRequest s w rest _ hs hreq hd (Bool.or_true _)]
      exact (reservedCodesAreIllegal b { s with requests := rest } hs).2

/-- Settles O8: after 0x81 and 0xF8 both decoders are the reading of an operand. -/
theorem byteAfterPrefixIsOperand : Obligations.ByteAfterPrefixIsOperand := by
  intro pre o rest hpre
  have hbyte : pre = 0x81 ∨ pre = 0xF8 := by simpa [isPrefixByte] using hpre
  refine ⟨by simp only [classify, hpre, if_true, Bool.false_eq_true, if_false], fun bs i more h => ?_⟩
  rcases hbyte with rfl | rfl
  · have hop : decodeOperand (o :: bs) 6 "SETEV" .setev = .ok (i, more) := h
    obtain ⟨o', ho, rfl⟩ := decodeOperand_ok hop
    exact ⟨(List.cons.inj ho).2.symm, .inl ⟨_, rfl⟩⟩
  · have hop : decodeOperand (o :: bs) 1 "SETBOOSTER" (fun o => .setbooster (decide (o = 1))) =
        .ok (i, more) := h
    obtain ⟨o', ho, rfl⟩ := decodeOperand_ok hop
    exact ⟨(List.cons.inj ho).2.symm, .inr ⟨_, rfl⟩⟩

/-- Settles O41: the bytes' frames are sent, all accepted. -/
theorem commandsSendTheirBytes : Obligations.CommandsSendTheirBytes := by
  intro i dc bs s es hc hw hes hq
  rw [exec_wire hw, ← hes, onWire, if_pos hc, runPart, performAll_emits_quiet es s hq]
  exact congrArg _ (delivered_wire hw hes)

/-- Settles O52: the frames are sent whole, or the operation ended with TRANSPORT_ERROR; none of them
drives the reset line. -/
theorem commandsFrame : Obligations.CommandsFrame := by
  intro i dc bs s t hw ht
  rw [exec_wire hw] at ht
  obtain ⟨-, rfl⟩ := onWire_next ht
  have hrst := runPart_level .rst _ s (rst_not_in_frames s.hasCs dc bs)
  obtain ⟨n, c, d, r, fs, ⟨-, hrun⟩ | ⟨b, hrun⟩⟩ :=
    runPart_cases (bs.flatMap fun b => frame s.hasCs dc [b]) s
  all_goals
    rw [hrun] at hrst ⊢
    refine ⟨rfl, rfl, rfl, rfl, rfl, rfl, rfl, rfl, hrst, rfl, fun _ => rfl, rfl, ⟨_, rfl⟩, ?_⟩
  · exact .inl ⟨rfl, rfl, rfl, rfl⟩
  · exact .inr ⟨rfl, rfl, rfl⟩

/-- Settles O7: the rows of R73 and the decoder's answer are compared for each of the 256 bytes. -/
theorem commandRowsAreDisjoint : Obligations.CommandRowsAreDisjoint := by
  unfold Obligations.CommandRowsAreDisjoint
  decide

/-- Settles O42: a field is truncated to its width, and a boolean chooses its constant. -/
theorem commandBytesByRow : Obligations.CommandBytesByRow := by
  intro p
  refine ⟨fun n => ?_, fun n => ?_, fun r => ?_, fun _ _ _ => rfl, fun l => ?_, fun e => ?_,
    fun _ => rfl, fun _ => rfl, fun _ => rfl, fun _ => rfl, fun _ => rfl, fun n => ?_, fun _ => rfl,
    rfl, fun _ => rfl, fun _ => rfl⟩
  · simp only [wireBytes, encColLsb, orField, setWidth_trunc, Nat.reducePow]
  · simp only [wireBytes, encColMsb, orField, setWidth_trunc, Nat.reducePow]
  · simp only [wireBytes, encRatio, orField, maskRatio, setWidth_trunc, Nat.reducePow]
  · simp only [wireBytes, encStartLine, orField, maskLine, setWidth_trunc, Nat.reducePow]
  · simp only [wireBytes, encContrast, maskContrast, setWidth_trunc, Nat.reducePow]
  · simp only [wireBytes, encPage, orField, maskPage, setWidth_trunc, Nat.reducePow]

/-- Settles O43: the word's value is the status code times 256 plus the data byte. -/
theorem responseWordLayout : Obligations.ResponseWordLayout := by
  intro s
  have hcode := statusCode_lt s.status
  have hdata := s.rdata.isLt
  have hword := responseWord_toNat s
  refine ⟨BitVec.eq_of_toNat_eq ?_, BitVec.eq_of_toNat_eq ?_, ?_⟩
  · rw [hword, BitVec.toNat_ofNat]
    cases s.status <;> simp [statusCode] <;> omega
  · rw [BitVec.extractLsb'_toNat, hword, Nat.shiftRight_eq_div_pow]
    show _ = 0
    omega
  · rw [BitVec.extractLsb'_toNat, hword, Nat.shiftRight_eq_div_pow]
    omega

end Sys2Proof.Machine

/-!
SUPPORT. The proofs of the family of spec/40_command_encoder.md, after what they share: an OR'd field as
an OR with the truncated operand and, on a base that is zero below it, as a sum; and the nibbles of a
column.
-/

namespace Sys2Proof.Machine

-- Fields OR'd into a base byte

/-- A field is its operand truncated to the field's width (spec/40_command_encoder.md R88). -/
theorem orField_ofNat (base : Byte) (k n : Nat) :
    orField base (BitVec.ofNat k n) = base ||| BitVec.ofNat 8 (n % 2 ^ k) := by
  rw [orField, setWidth_trunc]

/-- On a base that is zero in the field's bits the OR is a sum (spec/30_encoding.md R74). -/
theorem orField_eq_add (base : Byte) {k n : Nat} (hbase : 2 ^ k ∣ base.toNat) (hn : n < 2 ^ k) :
    orField base (BitVec.ofNat k n) = BitVec.ofNat 8 (base.toNat + n) := by
  obtain ⟨q, hq⟩ := hbase
  have hsum : base.toNat + n = base.toNat ||| n := by rw [hq, Nat.two_pow_add_eq_or_of_lt hn]
  rw [orField_ofNat, Nat.mod_eq_of_lt hn, hsum, BitVec.ofNat_or, BitVec.ofNat_toNat, BitVec.setWidth_eq]

/-- The table's code of a row with a field is the encoder's byte (R73, R74). -/
theorem commandCode_field (base : Byte) {k n : Nat} (hbase : 2 ^ k ∣ base.toNat) (hn : n < 2 ^ k) :
    commandCode [base.toNat + n] = .wire .low [orField base (BitVec.ofNat k n)] := by
  rw [orField_eq_add base hbase hn]
  rfl

-- The nibbles of a column (R91)

theorem maskColumn_high (c : Nat) : (maskColumn c).extractLsb' 4 4 = BitVec.ofNat 4 (c / 16) := by
  apply BitVec.eq_of_toNat_eq
  simp only [maskColumn, BitVec.extractLsb'_toNat, BitVec.toNat_ofNat, Nat.shiftRight_eq_div_pow]
  omega

theorem maskColumn_low (c : Nat) : (maskColumn c).extractLsb' 0 4 = BitVec.ofNat 4 c := by
  apply BitVec.eq_of_toNat_eq
  simp only [maskColumn, BitVec.extractLsb'_toNat, BitVec.toNat_ofNat, Nat.shiftRight_zero]
  omega

-- The rotation operand (R67)

theorem legalRotation_eq_deg0_iff {n : Nat} : legalRotation n = some .deg0 ↔ n = 0 := by
  unfold legalRotation
  split <;> simp [*]

theorem legalRotation_eq_deg180_iff {n : Nat} : legalRotation n = some .deg180 ↔ n = 180 := by
  unfold legalRotation
  split <;> simp [*]

theorem legalRotation_eq_none_iff {n : Nat} : legalRotation n = none ↔ n ≠ 0 ∧ n ≠ 180 := by
  unfold legalRotation
  split <;> simp [*]

-- The obligations

/-- Settles O9: a row's field lies in the zero bits of its base, so the encoder's OR is the table's sum;
the rows without a field have one code for each boolean. -/
theorem encoderAgreesWithCommandTable : Obligations.EncoderAgreesWithCommandTable := by
  intro i dc bs hw hi
  cases i <;> simp only [wireBytes, reduceCtorEq, Option.some.injEq, Prod.mk.injEq] at hi <;>
    obtain ⟨rfl, rfl⟩ := hi <;> simp only [Instr.wellFormed, decide_eq_true_eq] at hw
  case collsb n =>
    calc commandCode [n] = commandCode [0 + n] := by rw [Nat.zero_add]
      _ = _ := commandCode_field defaultOpcodes.colLsb (by decide) hw
  case colmsb n => exact commandCode_field defaultOpcodes.colMsb (by decide) hw
  case regratio r => exact commandCode_field defaultOpcodes.regRatio (by decide) hw
  case startline l => exact commandCode_field defaultOpcodes.startLine (by decide) hw
  case pageaddr n => exact commandCode_field defaultOpcodes.page (by decide) hw
  case setev e =>
    rw [encContrast, maskContrast, setWidth_trunc, Nat.mod_eq_of_lt (b := 2 ^ 6) hw]
    rfl
  case powerctrl vb vr vf => cases vb <;> cases vr <;> cases vf <;> rfl
  case swreset => rfl
  case data d => rfl
  case segdir b => cases b <;> rfl
  case bias b => cases b <;> rfl
  case allpix b => cases b <;> rfl
  case inverse b => cases b <;> rfl
  case disponoff b => cases b <;> rfl
  case comdir b => cases b <;> rfl
  case setbooster b => cases b <;> rfl

/-- Settles O14: the laws of `cmdFrames` as a concatenation of frames, and what the controller sees of
them. -/
theorem eachCommandByteHasItsFrame : Obligations.EachCommandByteHasItsFrame := fun c bs cs b dc es =>
  ⟨rfl, rfl, cmdFrames_nil c, cmdFrames_cons c b bs, cmdFrames_append c bs cs,
    wireView_append_cmdFrames c dc b bs es⟩

/-- Settles O15: each operand is truncated to its field, the column's to its two nibbles. -/
theorem numericEncodersMaskAndOr : Obligations.NumericEncodersMaskAndOr := by
  intro p n
  refine ⟨?_, ?_, ?_, ?_, ?_⟩
  · simp only [encPage, maskPage, orField_ofNat, Nat.reducePow]
  · simp only [encColumn, encColMsb, encColLsb, maskColumn_high, maskColumn_low, orField_ofNat,
      List.singleton_append, Nat.reducePow]
  · simp only [encContrast, maskContrast, setWidth_trunc, Nat.reducePow]
  · simp only [encRatio, maskRatio, orField_ofNat, Nat.reducePow]
  · simp only [encStartLine, maskLine, orField_ofNat, Nat.reducePow]

/-- Settles O16: a mask is a truncation, and the rotation operand is compared as it is. -/
theorem operandsMaskButRotationDoesNot : Obligations.OperandsMaskButRotationDoesNot := fun n =>
  ⟨BitVec.toNat_ofNat n 6, BitVec.toNat_ofNat n 3, BitVec.toNat_ofNat n 4, BitVec.toNat_ofNat n 8,
    BitVec.toNat_ofNat n 6, legalRotation_eq_deg0_iff, legalRotation_eq_deg180_iff,
    legalRotation_eq_none_iff⟩

end Sys2Proof.Machine

/-!
SUPPORT. The proofs of the family of spec/41_addressing_present.md, after what they share: the page
segments, the page-write sequence and lists of them, what the controller sees of them, and the events of
an operation that ends OK.
-/

namespace Sys2Proof.Machine

-- The page segments (R110)

theorem pageSegment_eq (m : Memory) (p : Nat) :
    pageSegment m p = (List.range 128).map fun j => Memory.read m (p * 128 + j) := rfl

/-- The first `n` segments one after another are the buffer's first `n` pages in index order. -/
theorem pageSegments_eq_map_read (m : Memory) (n : Nat) :
    (List.range n).flatMap (pageSegment m) = (List.range (n * 128)).map (Memory.read m) := by
  induction n with
  | zero => rfl
  | succ n ih =>
    rw [List.range_succ, List.flatMap_append, List.flatMap_singleton, ih, Nat.add_one_mul,
      List.range_add, List.map_append, List.map_map]
    rfl

-- Events that are no delay

theorem delays_append (es fs : List Event) : delays (es ++ fs) = delays es ++ delays fs := by
  induction es with
  | nil => rfl
  | cons e es ih => cases e <;> simp [delays, ih]

/-- An event is an emission that can fail or a delay (spec/60_exceptions.md R168). -/
theorem emissions_add_length_delays (es : List Event) :
    emissions es + (delays es).length = es.length := by
  induction es with
  | nil => rfl
  | cons e es ih => cases e <;> simp [delays] <;> omega

@[simp] theorem delays_frame (c : Bool) (dc : Level) (bs : List Byte) :
    delays (frame c dc bs) = [] := by cases c <;> rfl

-- Lists of event sequences

section
variable {α : Type} {f : α → List Event} (xs : List α)

theorem delays_flatMap (h : ∀ x, delays (f x) = []) : delays (xs.flatMap f) = [] := by
  induction xs with
  | nil => rfl
  | cons x xs ih => rw [List.flatMap_cons, delays_append, h, ih, List.append_nil]

theorem emissions_flatMap {n : Nat} (h : ∀ x, emissions (f x) = n) :
    emissions (xs.flatMap f) = xs.length * n := by
  induction xs with
  | nil => simp
  | cons x xs ih => rw [List.flatMap_cons, emissions_append, h, ih, List.length_cons]; ring

/-- Where every sequence leaves a line at `w`, and found it at `v` or `w`, so does a list of them. -/
theorem levelAfter_flatMap {l : Line} {v w : Level} (hne : xs ≠ [])
    (hv : ∀ x, levelAfter l v (f x) = w) (hw : ∀ x, levelAfter l w (f x) = w) :
    levelAfter l v (xs.flatMap f) = w := by
  have hstay : ∀ ys : List α, levelAfter l w (ys.flatMap f) = w := by
    intro ys
    induction ys with
    | nil => rfl
    | cons y ys ih => rw [List.flatMap_cons, levelAfter_append, hw, ih]
  cases xs with
  | nil => exact absurd rfl hne
  | cons x xs => rw [List.flatMap_cons, levelAfter_append, hv, hstay]

end

@[simp] theorem delays_cmdFrames (c : Bool) (bs : List Byte) : delays (cmdFrames c bs) = [] :=
  delays_flatMap bs fun b => delays_frame c .low [b]

-- The page-write sequence (R111)

/-- The four command bytes of a page write (R90, R91, R97). -/
theorem pageCommands_eq (par : Params) (off : BitVec 8) (p : Nat) :
    pageCommands par off p =
      [par.cmd.startLine, par.cmd.page ||| BitVec.ofNat 8 (p % 16),
        par.cmd.colMsb ||| BitVec.ofNat 8 (off.toNat / 16),
        par.cmd.colLsb ||| BitVec.ofNat 8 (off.toNat % 16)] := by
  obtain ⟨-, -, -, -, hstart⟩ := numericEncodersMaskAndOr par 0
  obtain ⟨hpage, -⟩ := numericEncodersMaskAndOr par p
  obtain ⟨-, hcol, -⟩ := numericEncodersMaskAndOr par off.toNat
  have hnibble : off.toNat / 16 % 16 = off.toNat / 16 := by omega
  simp [pageCommands, mapPage, hstart, hpage, hcol, hnibble]

theorem pageWriteEvents_eq (s : State) (p : Nat) :
    pageWriteEvents s p = pageWrite s.params s.hasCs (colOff s) s.buf p := by
  rw [pageWrite, pageCommands_eq]
  rfl

section
variable (par : Params) (c : Bool) (off : BitVec 8) (m : Memory) (p : Nat)

theorem emissions_pageWrite :
    emissions (pageWrite par c off m p) = if c then 20 else 10 := by
  cases c <;> simp [pageWrite, pageCommands_eq]

theorem delays_pageWrite : delays (pageWrite par c off m p) = [] := by
  simp [pageWrite, delays_append]

theorem csAfter_pageWrite (v : Level) :
    levelAfter .cs v (pageWrite par c off m p) = if c then .high else v := by
  have hne : pageCommands par off p ≠ [] := by simp [pageCommands_eq]
  rw [pageWrite, levelAfter_append, csAfter_cmdFrames _ _ _ hne, csAfter_frame]
  cases c <;> rfl

/-- The data frame comes last, so DC is left High. -/
theorem dcAfter_pageWrite (v : Level) :
    levelAfter .dc v (pageWrite par c off m p) = .high := by
  rw [pageWrite, levelAfter_append, dcAfter_frame]

theorem rstAfter_pageWrite (v : Level) :
    levelAfter .rst v (pageWrite par c off m p) = v := by
  rw [pageWrite, levelAfter_append, rstAfter_cmdFrames, rstAfter_frame]

/-- What the controller sees of a page write: its commands, then its segment as display data. -/
theorem wireView_append_pageWrite (dc : Level) (es : List Event) :
    wireView dc (pageWrite par c off m p ++ es) =
      (pageCommands par off p).map (fun b => (Level.low, b)) ++
        (pageSegment m p).map (fun b => (Level.high, b)) ++ wireView .high es := by
  rw [pageWrite, pageCommands_eq, List.append_assoc, wireView_append_cmdFrames,
    wireView_append_frame, List.append_assoc]

-- Present (R112)

theorem emissions_presentEvents :
    emissions (presentEvents par c off m) = if c then 160 else 80 := by
  rw [presentEvents, emissions_flatMap _ (emissions_pageWrite par c off m)]
  cases c <;> rfl

theorem delays_presentEvents : delays (presentEvents par c off m) = [] :=
  delays_flatMap _ (delays_pageWrite par c off m)

theorem length_presentEvents :
    (presentEvents par c off m).length = if c then 160 else 80 := by
  rw [← emissions_add_length_delays, delays_presentEvents, emissions_presentEvents]
  rfl

/-- What the controller sees of a list of page writes, whatever the level of DC before them. -/
theorem wireView_pageWrites (dc : Level) (ps : List Nat) :
    wireView dc (ps.flatMap (pageWrite par c off m)) =
      ps.flatMap fun p => (pageCommands par off p).map (fun b => (Level.low, b)) ++
        (pageSegment m p).map (fun b => (Level.high, b)) := by
  induction ps generalizing dc with
  | nil => rfl
  | cons p ps ih => rw [List.flatMap_cons, wireView_append_pageWrite, ih, List.flatMap_cons]

end

/-- A present whose emissions are all accepted changes only the levels of CS and DC. -/
theorem delivered_presentEvents (s : State) :
    delivered (presentEvents s.params s.hasCs (colOff s) s.buf) s =
      { s with
        csLvl := if s.hasCs then .high else s.csLvl, dcLvl := .high,
        trace := s.trace ++ presentEvents s.params s.hasCs (colOff s) s.buf,
        failures := afterQuiet (if s.hasCs then 160 else 80) s.failures } := by
  have hne : List.range pages ≠ [] := by decide
  have hcs := levelAfter_flatMap _ hne
    (fun p => csAfter_pageWrite s.params s.hasCs (colOff s) s.buf p s.csLvl)
    (fun p => by rw [csAfter_pageWrite]; cases s.hasCs <;> rfl)
  have hdc := levelAfter_flatMap _ hne
    (fun p => dcAfter_pageWrite s.params s.hasCs (colOff s) s.buf p s.dcLvl)
    (fun p => dcAfter_pageWrite s.params s.hasCs (colOff s) s.buf p .high)
  have hrst := levelAfter_flatMap _ hne
    (fun p => rstAfter_pageWrite s.params s.hasCs (colOff s) s.buf p s.rstLvl)
    (fun p => rstAfter_pageWrite s.params s.hasCs (colOff s) s.buf p s.rstLvl)
  rw [← presentEvents] at hcs hdc hrst
  rw [delivered, hcs, hdc, hrst, emissions_presentEvents]

/-- The page writes of present, one by one. -/
theorem presentEvents_eq (s : State) :
    presentEvents s.params s.hasCs (colOff s) s.buf =
      pageWriteEvents s 0 ++ pageWriteEvents s 1 ++ pageWriteEvents s 2 ++ pageWriteEvents s 3
        ++ pageWriteEvents s 4 ++ pageWriteEvents s 5 ++ pageWriteEvents s 6 ++ pageWriteEvents s 7 := by
  have hpages : List.range pages = [0, 1, 2, 3, 4, 5, 6, 7] := by decide
  simp only [presentEvents, hpages, pageWriteEvents_eq, List.flatMap_cons, List.flatMap_nil,
    List.append_assoc, List.append_nil]

/-- A response from Idle writes the response registers only. -/
theorem respond_idle (st : Status) (d : Byte) {s : State} (hs : s.seq = .idle) :
    respond st d s = { s with status := st, rdata := d } := by
  rw [respond, ← hs]

theorem planned_present {s : State} (hl : runtime s.life = true) :
    planned .present s = some (presentEvents s.params s.hasCs (colOff s) s.buf) := if_pos hl

/-- An emitting operation that ends OK has its planned events as the trace's last. -/
theorem emitting_ok_trace {i : Instr} {s t : State} (hi : emitting i = true)
    (h : exec i s = .next t) (hok : t.status = .ok) :
    ∃ es, planned i s = some es ∧ t.trace = s.trace ++ es := by
  obtain ⟨e, rfl | rfl, rfl, -⟩ | ⟨es, n, c, d, r, fs, hp, ⟨-, rfl⟩ | rfl⟩ := emitting_cases hi h
  · cases hok
  · cases hok
  · exact ⟨es, hp, writeAll_keeps State.trace writeReg_trace _ _⟩
  · cases hok

theorem present_ok_trace {s t : State} (h : exec .present s = .next t) (hok : t.status = .ok) :
    planned .present s = some (presentEvents s.params s.hasCs (colOff s) s.buf) ∧
      t.trace = s.trace ++ presentEvents s.params s.hasCs (colOff s) s.buf := by
  obtain ⟨es, hp, htr⟩ := emitting_ok_trace (i := .present) rfl h hok
  obtain ⟨hl, hes⟩ := Option.ite_none_right_eq_some.1 hp
  cases hes
  exact ⟨hp, htr⟩

-- The obligations

/-- Settles O28: present is the run of its eight page writes, with no register write after them. -/
theorem presentSendsWholeBuffer : Obligations.PresentSendsWholeBuffer := by
  intro s es hr hes
  obtain rfl := hes.trans (presentEvents_eq s).symm
  have hrun (hl : runtime s.life = true) := exec_emitting .present s _ hr rfl (planned_present hl)
  refine ⟨fun hl hq => ?_, fun hl => stopsAtFailure_of_run _ _ _ s hr (hrun hl), fun hl => ?_⟩
  · rw [← emissions_presentEvents s.params s.hasCs (colOff s) s.buf] at hq
    rw [hrun hl, runOp_quiet false _ _ s hq, delivered_presentEvents]
    exact congrArg _ (respond_idle .ok 0x00 hr.1)
  · simp only [exec, execPresent, onBlock_ready _ _ hr, hl, Bool.false_eq_true, if_false,
      raiseError_idle _ hr.1]

/-- Settles O29: the events are eight page writes, each seen as four commands and its segment. -/
theorem presentWireView : Obligations.PresentWireView := by
  intro s t dc h hok
  obtain ⟨hp, htr⟩ := present_ok_trace h hok
  have hview : wireView dc (presentEvents s.params s.hasCs (colOff s) s.buf) = _ :=
    wireView_pageWrites s.params s.hasCs (colOff s) s.buf dc (List.range pages)
  refine ⟨_, htr, ?_, ?_, length_presentEvents .., delays_presentEvents ..,
    plan_rst rfl hp (.inl (by simp))⟩
  · rw [hview]
    refine List.flatMap_congr fun p hmem => ?_
    have hlt : p < 8 := List.mem_range.1 hmem
    have hmod : p % 16 = p := Nat.mod_eq_of_lt (by omega)
    rw [pageCommands_eq, pageSegment_eq, hmod, List.map_map]
    rfl
  · rw [hview]
    simp [List.length_flatMap, pageCommands_eq, pageSegment_eq, pages]

/-- Settles O30: the events of a present that ends OK are a function of these four. -/
theorem presentDependsOnBufferOffsetAndCs : Obligations.PresentDependsOnBufferOffsetAndCs := by
  intro s s' t t' hbuf hoff hcs hpar h h' hok hok'
  obtain ⟨-, htr⟩ := present_ok_trace h hok
  obtain ⟨-, htr'⟩ := present_ok_trace h' hok'
  rw [← hbuf, ← hoff, ← hcs, ← hpar] at htr'
  exact ⟨_, htr, htr'⟩

/-- Settles O26: the eight segments are the first 8 * 128 bytes. -/
theorem segmentsPartitionBuffer : Obligations.SegmentsPartitionBuffer := fun m =>
  ⟨pageSegments_eq_map_read m 8, pageSegment_eq m⟩

end Sys2Proof.Machine

/-!
SUPPORT. The proofs of the family of spec/42_lifecycle.md, after what they share: the accepted run of an
emitting operation, the state after the events of reset, initialize and construct, and what the
operations that write `LIFE` have done when they end OK.
-/

namespace Sys2Proof.Machine

-- Accepted runs

/-- An emitting operation whose emissions are all accepted. -/
theorem exec_emitting_quiet {i : Instr} {s : State} {es : List Event} (hr : s.ready)
    (hi : emitting i = true) (hp : planned i s = some es)
    (hq : quietFor (emissions es) s.failures = true) :
    exec i s = .next (respond .ok 0x00 (writeAll (opWrites i) (delivered es s))) := by
  rw [exec_emitting i s es hr hi hp, runOp_quiet false es _ s hq]

/-- Wherever a failure falls among its planned events, an emitting operation stops there (R168). -/
theorem emitting_stopsAtFailure {i : Instr} {s : State} {es : List Event} (hr : s.ready)
    (hi : emitting i = true) (hp : planned i s = some es) : stopsAtFailure i es s :=
  stopsAtFailure_of_run i es (opWrites i) s hr (exec_emitting i s es hr hi hp)

/-- A check's error on a block writes the response registers only (R170). -/
theorem onBlock_raiseError (e : Status) {s : State} (hr : s.ready) :
    onBlock s (raiseError e s) = .next { s with status := e, rdata := 0x00 } := by
  rw [onBlock_ready _ _ hr, raiseError_idle e hr.1]

/-- Events and register writes touch different fields. -/
theorem delivered_writeReg (es : List Event) (w : RegWrite) (s : State) :
    delivered es (writeReg w s) = writeReg w (delivered es s) := by
  cases w <;> rfl

-- Reset (R124)

theorem resetEvents_eq (p : Params) (c r : Bool) :
    resetEvents p c r = resetPulse p r ++ frame c .low [p.cmd.swReset] := by
  simp [resetEvents, cmdFrames, encReset]

/-- The pulse leaves the reset line High, and the software reset's frame the other lines. -/
theorem delivered_resetEvents (p : Params) (c r : Bool) (s : State) :
    delivered (resetEvents p c r) s =
      { s with
        csLvl := if c then .high else s.csLvl, dcLvl := .low,
        rstLvl := if r then .high else s.rstLvl, trace := s.trace ++ resetEvents p c r,
        failures := afterQuiet (emissions (resetEvents p c r)) s.failures } := by
  cases c <;> cases r <;> rfl

-- Initialize (R125)

theorem delivered_initEvents (p : Params) (c : Bool) (r : Rotation) (inv : Bool) (con rat : Nat)
    (s : State) :
    delivered (initEvents p c r inv con rat) s =
      { s with
        csLvl := if c then .high else s.csLvl, dcLvl := .low,
        trace := s.trace ++ initEvents p c r inv con rat,
        failures := afterQuiet (emissions (initEvents p c r inv con rat)) s.failures } := by
  rw [initEvents, delivered_cmdFrames c _ s (initSeq_ne_nil _ _ _ _ _), emissions_cmdFrames]

theorem planned_initialise {rot : Nat} {r : Rotation} (inv : Bool) (con rat : Nat) {s : State}
    (hl : s.life = .resetting) (hrot : legalRotation rot = some r) :
    planned (.initialise rot inv con rat) s =
      some (initEvents s.params s.hasCs r inv con rat) := by
  simp [planned, hl, hrot]

-- Construct (R123)

/-- The events of construct, in order. -/
def constructEvents (p : Params) (hcs hrst : Bool) (r : Rotation) (inv : Bool) (con rat : Nat) :
    List Event :=
  idleLevels hcs hrst ++ resetEvents p hcs hrst ++ initEvents p hcs r inv con rat

/-- On a new block construct's events leave every line at its idle level. -/
theorem delivered_constructEvents (p : Params) (hcs hrst : Bool) (r : Rotation) (inv : Bool)
    (con rat : Nat) (s : State) :
    delivered (constructEvents p hcs hrst r inv con rat) (newBlock hcs hrst r inv con rat s) =
      { newBlock hcs hrst r inv con rat s with
        trace := s.trace ++ constructEvents p hcs hrst r inv con rat,
        failures := afterQuiet (emissions (constructEvents p hcs hrst r inv con rat)) s.failures } := by
  obtain ⟨hcsHigh, hrstHigh⟩ : restful (constructEvents p hcs hrst r inv con rat) :=
    restful_append (restful_append (restful_idleLevels ..) (restful_resetEvents ..))
      (restful_cmdFrames ..)
  have hdcLow : ∀ v, levelAfter .dc v (constructEvents p hcs hrst r inv con rat) = .low := fun v => by
    rw [constructEvents, levelAfter_append]
    exact dcAfter_cmdFrames hcs _ _ (initSeq_ne_nil _ _ _ _ _)
  simp [delivered, newBlock, hcsHigh, hrstHigh, hdcLow]

/-- An accepted construct: its events and then its register writes, `LIFE <- Resetting` first, which
the events of the initialization sequence do not see. -/
theorem runOp_constructBody_quiet (p : Params) (hcs hrst : Bool) (r : Rotation) (inv : Bool)
    (con rat : Nat) (s : State)
    (hq : quietFor (emissions (constructEvents p hcs hrst r inv con rat)) s.failures = true) :
    runOp true (constructBody p hcs hrst r inv con rat) s =
      respond .ok 0x00 (writeAll (.life .resetting :: initRegWrites r inv con rat)
        (delivered (constructEvents p hcs hrst r inv con rat) s)) := by
  rw [constructEvents, emissions_append] at hq
  obtain ⟨hq1, hq2⟩ := quietFor_add _ _ _ hq
  have hfront : performAll (emits (idleLevels hcs hrst ++ resetEvents p hcs hrst)
      ++ [RegWrite.life .resetting].map Action.write) s =
      .accepted (writeReg (.life .resetting)
        (delivered (idleLevels hcs hrst ++ resetEvents p hcs hrst) s)) := by
    rw [performAll_append, performAll_emits_quiet _ s hq1]
    rfl
  rw [constructBody_split, runOp_append_accepted true _ hfront, runOp_quiet true _ _ _ hq2,
    delivered_writeReg, ← delivered_append]
  rfl

-- What the writers of LIFE have done when they end OK

/-- An emitting operation that ends OK has passed its checks and written its registers. -/
theorem emitting_ok {i : Instr} {s t : State} (hi : emitting i = true) (h : exec i s = .next t)
    (hok : t.status = .ok) :
    ∃ es c d k fs, planned i s = some es ∧ t = respond .ok 0x00 (writeAll (opWrites i)
      { s with trace := s.trace ++ es, csLvl := c, dcLvl := d, rstLvl := k, failures := fs }) := by
  obtain ⟨e, rfl | rfl, rfl, -⟩ | ⟨es, n, c, d, k, fs, hp, ⟨-, rfl⟩ | rfl⟩ := emitting_cases hi h
  · cases hok
  · cases hok
  · exact ⟨es, c, d, k, fs, hp, rfl⟩
  · cases hok

theorem reset_ok {s t : State} (h : exec .reset s = .next t) (hok : t.status = .ok) :
    t.life = .resetting := by
  obtain ⟨es, c, d, k, fs, -, rfl⟩ := emitting_ok (i := .reset) rfl h hok
  rfl

theorem initialise_ok {rot : Nat} {inv : Bool} {con rat : Nat} {s t : State}
    (h : exec (.initialise rot inv con rat) s = .next t) (hok : t.status = .ok) :
    s.life = .resetting ∧ t.life = .initialized := by
  obtain ⟨es, c, d, k, fs, hp, rfl⟩ := emitting_ok (i := .initialise rot inv con rat) rfl h hok
  obtain ⟨hl, hmap⟩ := Option.ite_none_right_eq_some.1 hp
  obtain ⟨r, hrot, -⟩ := Option.map_eq_some_iff.1 hmap
  refine ⟨hl, ?_⟩
  rw [opWrites, hrot]
  rfl

theorem setSleeping_ok {b : Bool} {s t : State} (h : exec (.setSleeping b) s = .next t)
    (hok : t.status = .ok) :
    runtime s.life = true ∧ ∃ es c d k fs, t = respond .ok 0x00
      { s with
        life := sleepLife b, trace := s.trace ++ es, csLvl := c, dcLvl := d, rstLvl := k,
        failures := fs } := by
  obtain ⟨es, c, d, k, fs, hp, rfl⟩ := emitting_ok (i := .setSleeping b) rfl h hok
  exact ⟨(Option.ite_none_right_eq_some.1 hp).1, es, c, d, k, fs, rfl⟩

/-- A construct that changes `LIFE` and leaves a block has ended OK (R123, R169). -/
theorem construct_block_life {hcs hrst : Bool} {rot : Nat} {inv : Bool} {con rat : Nat} {s t : State}
    (h : exec (.construct hcs hrst rot inv con rat) s = .next t) (hc : t.constructed = true)
    (hne : t.life ≠ s.life) : t.status = .ok ∧ t.life = .initialized := by
  obtain ⟨-, rfl | ⟨r, es, -, ⟨c, d, k, fs, rfl⟩ | ⟨l, c, d, k, fs, rfl⟩⟩⟩ := construct_cases h
  · exact absurd rfl hne
  · exact ⟨rfl, rfl⟩
  · simp at hc

/-- The runtime states are two, and setSleeping moves only from one to the other (R120). -/
theorem sleepLife_moves {b : Bool} {l : Life} (hl : runtime l = true) (hne : sleepLife b ≠ l) :
    (l = .initialized ∧ b = true) ∨ (l = .sleeping ∧ b = false) := by
  cases l with
  | unreset => cases hl
  | resetting => cases hl
  | initialized => cases b with
    | false => exact absurd rfl hne
    | true => exact .inl ⟨rfl, rfl⟩
  | sleeping => cases b with
    | false => exact .inr ⟨rfl, rfl⟩
    | true => exact absurd rfl hne

-- The obligations

/-- Settles O19: an accepted construct is its events on the new block and then its register writes; a
failure among the events ends its list there. -/
theorem constructMakesBlock : Obligations.ConstructMakesBlock := by
  intro hcs hrst rot inv con rat r s es hs hrot hes
  obtain rfl : es = constructEvents s.params hcs hrst r inv con rat := hes
  rw [exec_construct hcs hrst inv con rat hs hrot]
  refine ⟨fun hq => ?_, fun f rest hf hlt => ?_⟩
  · rw [runOp_constructBody_quiet s.params hcs hrst r inv con rat
      (newBlock hcs hrst r inv con rat s) hq, delivered_constructEvents]
    exact congrArg _ (respond_idle .ok 0x00 hs)
  · obtain ⟨pre, e, post, hsplit, hc, ha⟩ := exists_failing _ _ hlt
    obtain ⟨u, hu, hfail, htr⟩ := performAll_fails (constructBody s.params hcs hrst r inv con rat)
      pre e post f rest (newBlock hcs hrst r inv con rat s)
      ((eventsOf_constructBody ..).trans hsplit) hc hf ha
    refine ⟨pre, e, post, _, hsplit, hc, ha, rfl, ?_⟩
    rw [runOp, hu, conclude]
    exact ⟨Bool.and_false _, rfl, rfl, rfl, hfail, htr⟩

/-- Settles O20: reset has no check, and its only register write is `LIFE <- Resetting`. -/
theorem resetPulsesAndGoesToResetting : Obligations.ResetPulsesAndGoesToResetting := by
  intro s es hr hes
  obtain rfl : es = resetEvents s.params s.hasCs s.hasRst := hes.trans (resetEvents_eq ..).symm
  refine ⟨fun hq => ?_, emitting_stopsAtFailure hr rfl rfl⟩
  rw [exec_emitting_quiet hr rfl rfl hq, delivered_resetEvents]
  exact congrArg _ (respond_idle .ok 0x00 hr.1)

/-- Settles O22: the rotation selects CONFIG_ERROR before `LIFE` is looked at; past both checks
initialize is its events and then its register writes. -/
theorem initializeReplaysSequence : Obligations.InitializeReplaysSequence := by
  intro rot inv con rat s hr
  refine ⟨fun r es hrot hes => ?_, fun hrot => ?_⟩
  · obtain rfl : es = initEvents s.params s.hasCs r inv con rat := hes
    have hplan (hl : s.life = .resetting) := planned_initialise inv con rat hl hrot
    refine ⟨fun hl hq => ?_, fun hl => emitting_stopsAtFailure hr rfl (hplan hl), fun hl => ?_⟩
    · rw [exec_emitting_quiet hr rfl (hplan hl) hq, delivered_initEvents, opWrites, hrot]
      exact congrArg _ (respond_idle .ok 0x00 hr.1)
    · simp only [exec, execInitialise, hrot, hl, if_false, onBlock_raiseError _ hr]
  · simp only [exec, execInitialise, hrot, onBlock_raiseError _ hr]

/-- Settles O23: in a runtime state setSleeping is the frames of its two bytes and one write of
`LIFE`. -/
theorem setSleepingSwitchesDisplay : Obligations.SetSleepingSwitchesDisplay := by
  intro b s es hr hes
  obtain rfl : es = cmdFrames s.hasCs (sleepBytes s.params b) := by rw [hes]; cases b <;> rfl
  have hne : sleepBytes s.params b ≠ [] := by cases b <;> simp [sleepBytes, encDisplay, encAllPixels]
  have hplan (hl : runtime s.life = true) :
      planned (.setSleeping b) s = some (cmdFrames s.hasCs (sleepBytes s.params b)) := if_pos hl
  refine ⟨fun hl hq => ?_, fun hl => emitting_stopsAtFailure hr rfl (hplan hl), fun hl => ?_⟩
  · rw [exec_emitting_quiet hr rfl (hplan hl) hq, delivered_cmdFrames _ _ _ hne,
      ← emissions_cmdFrames]
    exact congrArg _ (respond_idle .ok 0x00 hr.1)
  · simp only [exec, execSetSleeping, hl, Bool.false_eq_true, if_false, onBlock_raiseError _ hr]

/-- Settles O31: sleep and wake write only `LIFE`, the lines and the trace, none of which present's
events depend on. -/
theorem sleepCycleKeepsImage : Obligations.SleepCycleKeepsImage := by
  intro s a b c d ha haok hb hbok hc hcok hd hdok
  obtain ⟨-, _, _, _, _, _, rfl⟩ := setSleeping_ok ha haok
  obtain ⟨-, _, _, _, _, _, rfl⟩ := setSleeping_ok hb hbok
  exact ⟨presentDependsOnBufferOffsetAndCs _ s c d rfl rfl rfl rfl hc hd hcok hdok,
    rfl, rfl, rfl, rfl, rfl, rfl, rfl⟩

/-- Settles O53: the three ends of construct, of which only CONFIG_ERROR keeps the old buffer. -/
theorem constructFrame : Obligations.ConstructFrame := by
  intro hcs hrst rot inv con rat s t h
  obtain ⟨-, rfl | ⟨r, es, -, ⟨c, d, k, fs, rfl⟩ | ⟨l, c, d, k, fs, rfl⟩⟩⟩ := construct_cases h
  · exact ⟨rfl, rfl, rfl, rfl, ⟨[], (List.append_nil _).symm⟩, absurd rfl⟩
  · exact ⟨rfl, rfl, rfl, rfl, ⟨es, rfl⟩, fun _ _ => rfl⟩
  · exact ⟨rfl, rfl, rfl, rfl, ⟨es, rfl⟩, fun _ _ => rfl⟩

/-- Settles O57: only a request's operation changes `LIFE`: construct, or one of its three writers, which
ended OK. -/
theorem lifecycleTransitions : Obligations.LifecycleTransitions := by
  intro s t hinv _ h hct hne
  obtain rfl | ⟨w, rest, hreq, ⟨-, rfl⟩ | ⟨i, hd, hx⟩⟩ := step_idle_cases hinv.idle h
  · exact absurd rfl hne
  · exact absurd rfl hne
  by_cases hi : ∃ hcs hrst rot inv con rat, i = .construct hcs hrst rot inv con rat
  · obtain ⟨hcs, hrst, rot, inv, con, rat, rfl⟩ := hi
    obtain ⟨hok, ht⟩ := construct_block_life hx hct hne
    exact ⟨hok, w, rest, _, hreq, hd, .inr (.inr (.inr (.inr ⟨ht, _, _, _, _, _, _, rfl⟩)))⟩
  · obtain ⟨-, -, -, hwriters, -⟩ := exec_writers hx fun _ _ _ _ _ _ hc => hi ⟨_, _, _, _, _, _, hc⟩
    obtain ⟨hok, hwriter⟩ := hwriters.life hne
    refine ⟨hok, w, rest, i, hreq, hd, ?_⟩
    rcases hwriter with rfl | ⟨rot, inv, con, rat, rfl⟩ | ⟨b, rfl⟩
    · exact .inl ⟨rfl, reset_ok hx hok⟩
    · obtain ⟨hs, ht⟩ := initialise_ok hx hok
      exact .inr (.inl ⟨hs, ht, rot, inv, con, rat, rfl⟩)
    · obtain ⟨hs, _, _, _, _, _, rfl⟩ := setSleeping_ok hx hok
      obtain ⟨hl, rfl⟩ | ⟨hl, rfl⟩ := sleepLife_moves hs hne
      · exact .inr (.inr (.inl ⟨hl, rfl, rfl⟩))
      · exact .inr (.inr (.inr (.inl ⟨hl, rfl, rfl⟩)))

/-- Settles O21: masking a contrast that is 6 bits wide already loses nothing, and the last step sends
one byte. -/
theorem initSequenceOrder : Obligations.InitSequenceOrder := by
  refine ⟨fun p r inv ev rr => ⟨?_, ?_⟩, by decide⟩
  · have hcontrast : encContrast p ev.toNat = [p.cmd.setEv, ev.setWidth 8] := by
      rw [encContrast, maskContrast, BitVec.ofNat_toNat, BitVec.setWidth_eq]
    rw [initSeq, hcontrast]
  · rw [initSeq]
    exact List.getLast?_append_of_ne_nil _ (List.cons_ne_nil _ _)

end Sys2Proof.Machine

/-!
SUPPORT. The proofs of the family of spec/43_runtime_config.md, after what its three operations share:
command frames and then one register write.
-/

namespace Sys2Proof.Machine

/-- An emitting operation of command frames and one register write, all accepted: the frames leave the
chip select High, where there is one, and DC Low (R85, R103). -/
theorem exec_cmdFrames_quiet {i : Instr} {s : State} {bs : List Byte} {w : RegWrite} {n : Nat}
    (hr : s.ready) (hi : emitting i = true) (hp : planned i s = some (cmdFrames s.hasCs bs))
    (hw : opWrites i = [w]) (hne : bs ≠ []) (hn : bs.length * (if s.hasCs then 4 else 2) = n)
    (hq : quietFor n s.failures = true) :
    exec i s = .next { writeReg w s with
      csLvl := if s.hasCs then .high else s.csLvl, dcLvl := .low,
      trace := s.trace ++ cmdFrames s.hasCs bs, failures := afterQuiet n s.failures,
      status := .ok, rdata := 0x00 } := by
  subst hn
  rw [exec_emitting_quiet hr hi hp (by rwa [emissions_cmdFrames]), delivered_cmdFrames _ _ _ hne, hw]
  refine congrArg _ ((respond_idle .ok 0x00 ?_).trans ?_)
  · cases w <;> exact hr.1
  · cases w <;> rfl

/-- The segment and the common direction commands are one byte each (R99, R100). -/
theorem length_directionBytes (p : Params) (r : Rotation) :
    (encSegDir p r ++ encComDir p r).length = 2 := by
  cases r <;> rfl

-- The obligations

/-- Settles O32: the operand byte is the masked contrast, whose truncation is the remainder modulo 64;
`EV` is written after both frames. -/
theorem setContrastMasksSendsAndStores : Obligations.SetContrastMasksSendsAndStores := by
  intro v s es hr hes
  have hmask : (maskContrast v).setWidth 8 = BitVec.ofNat 8 (v % 64) := setWidth_trunc 6 v
  obtain rfl : es = cmdFrames s.hasCs (encContrast s.params v) := by rw [hes, encContrast, hmask]
  have hplan (hl : runtime s.life = true) :
      planned (.setContrast v) s = some (cmdFrames s.hasCs (encContrast s.params v)) := if_pos hl
  refine ⟨fun hl => exec_cmdFrames_quiet hr rfl (hplan hl) rfl (List.cons_ne_nil _ _) (mul_ite ..),
    fun hl => emitting_stopsAtFailure hr rfl (hplan hl), fun hl => ?_⟩
  simp only [exec, execSetContrast, hl, Bool.false_eq_true, if_false, onBlock_raiseError _ hr]

/-- Settles O33: the events are those of the operand's polarity byte alone, so the old `INV` is not
asked. -/
theorem setInvertedSendsPolarity : Obligations.SetInvertedSendsPolarity := by
  intro b s es hr hes
  obtain rfl : es = cmdFrames s.hasCs (encPolarity s.params b) := by
    rw [hes, encPolarity, cmdFrames_cons, cmdFrames_nil, List.append_nil]
  have hplan (hl : runtime s.life = true) :
      planned (.setInverted b) s = some (cmdFrames s.hasCs (encPolarity s.params b)) := if_pos hl
  refine ⟨fun hl => exec_cmdFrames_quiet hr rfl (hplan hl) rfl (List.cons_ne_nil _ _) (one_mul _),
    fun hl => emitting_stopsAtFailure hr rfl (hplan hl), fun hl => ?_⟩
  simp only [exec, execSetInverted, hl, Bool.false_eq_true, if_false, onBlock_raiseError _ hr]

/-- Settles O34: a bad rotation is CONFIG_ERROR before `LIFE` is looked at; past both checks the two
direction bytes go out, segment first, and then `ROT` is written. -/
theorem setRotationSendsDirections : Obligations.SetRotationSendsDirections := by
  intro rot s hr
  refine ⟨fun r es hrot hes => ?_, fun hrot => ?_⟩
  · obtain rfl : es = cmdFrames s.hasCs (encSegDir s.params r ++ encComDir s.params r) :=
      hes.trans (by cases r <;> rfl)
    have hplan (hl : runtime s.life = true) : planned (.setRotation rot) s =
        some (cmdFrames s.hasCs (encSegDir s.params r ++ encComDir s.params r)) := by
      simp only [planned, hl, if_true, hrot, Option.map_some]
    have hwrites : opWrites (.setRotation rot) = [.rot r] := by rw [opWrites, hrot]
    have hlen := length_directionBytes s.params r
    refine ⟨fun hl => exec_cmdFrames_quiet hr rfl (hplan hl) hwrites
        (List.ne_nil_of_length_pos (hlen ▸ two_pos)) (by rw [hlen, mul_ite]),
      fun hl => emitting_stopsAtFailure hr rfl (hplan hl), fun hl => ?_⟩
    simp only [exec, execSetRotation, hrot, hl, Bool.false_eq_true, if_false, onBlock_raiseError _ hr]
  · simp only [exec, execSetRotation, hrot, onBlock_raiseError _ hr]

end Sys2Proof.Machine

/-!
SUPPORT. The proofs of the family of spec/44_pixel_buffer.md, after what they share: the loop of byte
writes that a fill stands for, the display's edges, and the buffer that each operation leaves.
-/

namespace Sys2Proof.Machine

theorem bufLen_eq : bufLen = 1024 := rfl

-- The buffer after a fill (R153)

/-- The first `n` bytes written one after another in index order: the loop of R153. -/
def fillLoop (v : Byte) (m : Memory) (n : Nat) : Memory :=
  (List.range n).foldl (fun b i => Memory.write b i v) m

theorem fillLoop_zero (v : Byte) (m : Memory) : fillLoop v m 0 = m := rfl

theorem fillLoop_succ (v : Byte) (m : Memory) (n : Nat) :
    fillLoop v m (n + 1) = Memory.write (fillLoop v m n) n v := by
  rw [fillLoop, List.range_succ, List.foldl_concat, fillLoop]

theorem wf_fillLoop (v : Byte) {m : Memory} (hm : Memory.wf m = true) {n : Nat} (hn : n ≤ bufLen) :
    Memory.wf (fillLoop v m n) = true := by
  induction n with
  | zero => exact hm
  | succ n ih =>
    rw [fillLoop_succ]
    exact wf_write _ n v (ih (Nat.le_of_succ_le hn)) hn

theorem read_fillLoop (v : Byte) {m : Memory} (hm : Memory.wf m = true) {n : Nat} (hn : n ≤ bufLen)
    (i : Nat) : Memory.read (fillLoop v m n) i = if i < n then v else Memory.read m i := by
  induction n with
  | zero => rw [fillLoop_zero, if_neg (Nat.not_lt_zero i)]
  | succ n ih =>
    have hn' : n ≤ bufLen := Nat.le_of_succ_le hn
    rw [fillLoop_succ, read_write _ 0 n v (wf_fillLoop v hm hn'), ih hn', ← ite_or]
    simp only [Nat.lt_succ_iff_lt_or_eq, or_comm]

/-- Canonical buffers agree outside the buffer (spec/20_memory.md R50). -/
theorem read_outside {m m' : Memory} (hm : Memory.wf m = true) (hm' : Memory.wf m' = true) {i : Nat}
    (hi : bufLen ≤ i) : Memory.read m i = Memory.read m' i :=
  (read_past_end m 0 i hm hi).trans (read_past_end m' 0 i hm' hi).symm

/-- The loop of byte writes over the whole buffer forgets the old one (R153). -/
theorem filled_eq_fillLoop (v : Byte) {m : Memory} (hm : Memory.wf m = true) :
    filled v = fillLoop v m bufLen := by
  have hloop : Memory.wf (fillLoop v m bufLen) = true := wf_fillLoop v hm le_rfl
  refine eq_of_read_eq _ _ 0 (wf_filled v) hloop fun i => ?_
  rcases Nat.lt_or_ge i bufLen with hi | hi
  · rw [read_filled v i hi, read_fillLoop v hm le_rfl, if_pos hi]
  · exact read_outside (wf_filled v) hloop hi

-- The display's edges (R151, R152)

theorem offDisplay_iff {x y : Nat} : onDisplay x y = false ↔ 128 ≤ x ∨ 64 ≤ y := by
  rw [← Bool.not_eq_true, onDisplay_iff]
  omega

-- The end of an operation that passes its check, and the buffer it leaves

/-- From Idle, an OK response after a write of the buffer changes nothing else (R150). -/
theorem respond_written (d : Byte) (m : Memory) {s : State} (hs : s.seq = .idle) :
    respond .ok d { s with buf := m } = { s with buf := m, status := .ok, rdata := d } :=
  respond_idle .ok d (s := { s with buf := m }) hs

theorem setPixel_buf {x y c : Nat} {s t : State} (h : exec (.setPixel x y c) s = .next t) :
    t.buf = if onDisplay x y then putPixel s.buf x y c else s.buf := by
  obtain ⟨_, rfl⟩ := onBlock_next h
  rw [respond_buf]
  split <;> rfl

theorem bufWrite_buf {n : Nat} {v : Byte} {s t : State} (h : exec (.bufWrite n v) s = .next t) :
    t.buf = if n < bufLen then Memory.write s.buf n v else s.buf := by
  obtain ⟨_, rfl⟩ := onBlock_next h
  split <;> rfl

theorem getPixel_buf {x y : Nat} {s t : State} (h : exec (.getPixel x y) s = .next t) :
    t.buf = s.buf := by
  obtain ⟨_, rfl⟩ := onBlock_next h
  split <;> rfl

theorem bufRead_buf {n : Nat} {s t : State} (h : exec (.bufRead n) s = .next t) : t.buf = s.buf := by
  obtain ⟨_, rfl⟩ := onBlock_next h
  split <;> rfl

/-- A setPixel reads and writes the one byte of its pixel (R151). -/
theorem setPixel_read_of_ne {x y c a : Nat} {s t : State} (hm : Memory.wf s.buf = true)
    (h : exec (.setPixel x y c) s = .next t) (ha : a ≠ pixelIndex x y) :
    Memory.read t.buf a = Memory.read s.buf a := by
  rw [setPixel_buf h]
  split
  · rw [putPixel, read_write _ 0 _ _ hm, if_neg ha]
  · rfl

theorem bufWrite_read_of_ne {n a : Nat} {v : Byte} {s t : State} (hm : Memory.wf s.buf = true)
    (h : exec (.bufWrite n v) s = .next t) (ha : a ≠ n) :
    Memory.read t.buf a = Memory.read s.buf a := by
  rw [bufWrite_buf h]
  split
  · rw [read_write _ 0 _ _ hm, if_neg ha]
  · rfl

-- The obligations

/-- Settles O35: off the display the operation only responds; on it the buffer is `putPixel`'s, which is
known bit by bit. -/
theorem setPixelWritesOneBit : Obligations.SetPixelWritesOneBit := by
  intro x y c s hr hm
  cases hd : onDisplay x y with
  | false =>
    have hoff : 128 ≤ x ∨ 64 ≤ y := offDisplay_iff.1 hd
    refine ⟨s.buf, ?_, fun _ => rfl, fun hx hy => by omega⟩
    rw [exec, execSetPixel, onBlock_ready _ _ hr, if_neg (Bool.eq_false_iff.1 hd), respond_idle _ _ hr.1]
  | true =>
    obtain ⟨hx, hy⟩ := onDisplay_iff.1 hd
    refine ⟨putPixel s.buf x y c, ?_, fun hoff => by omega, fun _ _ i k hk => putPixel_bits hm x y c i hk⟩
    rw [exec_setPixel_onDisplay c hr hd, respond_written _ _ hr.1]

/-- Settles O37: the filled buffer is the one the loop of byte writes makes, as both are canonical and
read the same. -/
theorem fillWritesEveryByte : Obligations.FillWritesEveryByte := by
  intro c s hr hm
  refine ⟨filled (if c ≠ 0 then 0xFF else 0x00), ?_, fun i hi => read_filled _ i (bufLen_eq ▸ hi), ?_⟩
  · rw [exec, execFill, onBlock_ready _ _ hr, respond_written _ _ hr.1]
  · rw [filled_eq_fillLoop _ hm, bufLen_eq, fillLoop]

/-- Settles O38: below 1024 a write to a canonical buffer, else ILLEGAL. -/
theorem bufWriteWritesOneByte : Obligations.BufWriteWritesOneByte := by
  intro i v s hr hm
  refine ⟨fun hi => ⟨Memory.write s.buf i v, ?_, read_write _ 0 i v hm⟩, fun hi => ?_⟩
  · rw [exec, execBufWrite, bufLen_eq, if_pos hi, onBlock_ready _ _ hr, respond_written _ _ hr.1]
  · rw [exec, execBufWrite, bufLen_eq, if_neg (Nat.not_lt.2 hi), onBlock_raiseError _ hr]

/-- Settles O51: the buffer and the response by the cases of a Pixel Buffer operation, the bytes by what
each operation does to the buffer. -/
theorem pixelOperationsFrame : Obligations.PixelOperationsFrame := by
  intro i s t h hm hi
  obtain ⟨hr, hcases⟩ := pixel_cases hi h
  have hread (ht : t.buf = s.buf) :
      t.buf = s.buf ∧ ∀ a, Memory.read t.buf a = Memory.read s.buf a := ⟨ht, fun _ => by rw [ht]⟩
  refine ⟨?_, ?_, ?_, ?_, ?_, ?_⟩
  · rcases hcases with rfl | ⟨d, m, rfl⟩
    · rw [raiseError_idle _ hr.1]
    · rw [respond_written _ _ hr.1]
  · rcases hcases with rfl | ⟨d, m, rfl⟩
    · exact .inr rfl
    · exact .inl rfl
  · rintro x y c a rfl ha
    exact setPixel_read_of_ne hm h ha
  · rintro n v a rfl ha
    exact bufWrite_read_of_ne hm h ha
  · rintro c a - ha
    exact read_outside (pixel_keeps_wf hi h hm) hm ha
  · rintro (⟨x, y, rfl⟩ | ⟨n, rfl⟩)
    · exact hread (getPixel_buf h)
    · exact hread (bufRead_buf h)

/-- Settles O36: on the display the bit at the pixel's place, off it ILLEGAL. -/
theorem getPixelReadsOneBit : Obligations.GetPixelReadsOneBit := by
  intro x y s hr
  refine ⟨fun hx hy => ?_, fun hoff => ?_⟩
  · rw [exec_getPixel_onDisplay hr (onDisplay_iff.2 ⟨hx, hy⟩), respond_idle _ _ hr.1]
    rfl
  · rw [exec, execGetPixel, if_neg (Bool.eq_false_iff.1 (offDisplay_iff.2 hoff)), onBlock_raiseError _ hr]

/-- Settles O39: below 1024 the byte at the index, else ILLEGAL. -/
theorem bufReadReadsOneByte : Obligations.BufReadReadsOneByte := by
  intro i s hr
  refine ⟨fun hi => ?_, fun hi => ?_⟩
  · rw [exec, execBufRead, bufLen_eq, if_pos hi, onBlock_ready _ _ hr, respond_idle _ _ hr.1]
  · rw [exec, execBufRead, bufLen_eq, if_neg (Nat.not_lt.2 hi), onBlock_raiseError _ hr]

end Sys2Proof.Machine

/-!
SUPPORT. The proofs of the family of spec/60_exceptions.md, after what they share: the line levels that
no event of a list drives, the lifecycle an emitting operation leaves, the invariant through each kind of
operation, and the one error entry that every check ends in.
-/

namespace Sys2Proof.Machine

-- Lines that nothing drives

/-- A line that no event of a list drives keeps its level, whatever the collaborators do; register writes
drive none. -/
theorem performAll_keeps_level (l : Line) (acts : List Action) (s : State)
    (h : ∀ v, Event.setLine l v ∉ eventsOf acts) :
    levelOf l (performAll acts s).state = levelOf l s := by
  induction acts generalizing s with
  | nil => rfl
  | cons a acts ih =>
    cases a with
    | write w => exact (ih (writeReg w s) h).trans (levelOf_writeReg l w s)
    | emit e =>
      have he := emit_level l e s fun v hv => h v (by simp [eventsOf, hv])
      have hrest : ∀ v, Event.setLine l v ∉ eventsOf acts := fun v hv => h v (List.mem_cons_of_mem e hv)
      simp only [performAll, perform]
      cases hs : emit e s with
      | accepted t => rw [hs] at he; exact (ih t hrest).trans he
      | failed t => rw [hs] at he; exact he

theorem runOp_keeps_level (l : Line) (b : Bool) (acts : List Action) (s : State)
    (h : ∀ v, Event.setLine l v ∉ eventsOf acts) : levelOf l (runOp b acts s) = levelOf l s := by
  rw [← performAll_keeps_level l acts s h, runOp]
  cases performAll acts s <;> cases l <;> rfl

/-- Without a chip-select line construct drives none (R22). -/
theorem cs_not_in_constructBody (p : Params) (hrst : Bool) (r : Rotation) (inv : Bool) (con rat : Nat)
    (v : Level) : Event.setLine .cs v ∉ eventsOf (constructBody p false hrst r inv con rat) := by
  rw [eventsOf_constructBody]
  cases hrst <;> simp [idleLevels, resetEvents, resetPulse, initEvents, cs_not_in_cmdFrames]

/-- Without a reset line construct drives none (R22). -/
theorem rst_not_in_constructBody (p : Params) (hcs : Bool) (r : Rotation) (inv : Bool) (con rat : Nat)
    (v : Level) : Event.setLine .rst v ∉ eventsOf (constructBody p hcs false r inv con rat) := by
  rw [eventsOf_constructBody]
  cases hcs <;> simp [idleLevels, resetEvents, resetPulse, initEvents, rst_not_in_cmdFrames]

/-- An emitting operation keeps the level of a line that is not in its plan. -/
theorem emitting_keeps_level (l : Line) {i : Instr} {s t : State} (hi : emitting i = true)
    (h : exec i s = .next t) (hl : ∀ es, planned i s = some es → ∀ v, Event.setLine l v ∉ es) :
    levelOf l t = levelOf l s := by
  have hr := emitting_next_ready hi h
  cases hp : planned i s with
  | none =>
    obtain ⟨e, -, hx⟩ := exec_emitting_error i s hr hi hp
    cases h.symm.trans hx
    exact levelOf_respond l e 0x00 s
  | some es =>
    cases h.symm.trans (exec_emitting i s es hr hi hp)
    exact runOp_level l false es (opWrites i) s (hl es hp)

-- The lifecycle

/-- No emitting operation goes back to Unreset (R121): the writers of `LIFE` write another state. -/
theorem emitting_life_ne_unreset {i : Instr} {s t : State} (hi : emitting i = true)
    (h : exec i s = .next t) (hs : s.life ≠ .unreset) : t.life ≠ .unreset := by
  by_cases hl : t.life = s.life
  · rwa [hl]
  obtain ⟨hok, rfl | ⟨rot, inv, con, rat, rfl⟩ | ⟨b, rfl⟩⟩ := (emitting_writers hi h).life hl
  · simp [reset_ok h hok]
  · simp [(initialise_ok h hok).2]
  · obtain ⟨-, _, _, _, _, _, rfl⟩ := setSleeping_ok h hok
    cases b <;> simp [sleepLife]

-- The invariant, operation by operation

/-- The error entry writes no register that the invariant reads (R170), and leaves the block Idle. -/
theorem State.Inv.raiseError {s : State} (h : s.Inv) (e : Status) : (raiseError e s).Inv :=
  ⟨h.paramsLegal, h.bufWf, rfl, h.lifeKnown, h.noCsLine, h.noRstLine⟩

/-- Taking a request from the host's list is not seen by the invariant. -/
theorem State.Inv.popRequest {s : State} (h : s.Inv) (rest : List Word) : (popRequest rest s).Inv :=
  ⟨h.paramsLegal, h.bufWf, h.idle, h.lifeKnown, h.noCsLine, h.noRstLine⟩

/-- Construct: a bad rotation leaves the old block, an accepted construct a block with its absent lines
where `newBlock` put them, a failed one no block. -/
theorem construct_keeps_inv {hcs hrst : Bool} {rot : Nat} {inv : Bool} {con rat : Nat} {s t : State}
    (hs : s.Inv) (h : exec (.construct hcs hrst rot inv con rat) s = .next t) : t.Inv := by
  have hbuf : Memory.wf s.params.bufInit = true := by
    have hlegal := hs.paramsLegal
    rw [Params.legal, Bool.and_eq_true] at hlegal
    exact hlegal.2
  obtain ⟨-, rfl | ⟨r, es, hrot, ht⟩⟩ := construct_cases h
  · exact hs.raiseError _
  have hrun := exec_construct hcs hrst inv con rat hs.idle hrot
  have hcsLvl : hcs = false → t.csLvl = .high := by
    rintro rfl
    cases h.symm.trans hrun
    exact runOp_keeps_level .cs true _ (newBlock false hrst r inv con rat s)
      (cs_not_in_constructBody _ _ _ _ _ _)
  have hrstLvl : hrst = false → t.rstLvl = .high := by
    rintro rfl
    cases h.symm.trans hrun
    exact runOp_keeps_level .rst true _ (newBlock hcs false r inv con rat s)
      (rst_not_in_constructBody _ _ _ _ _ _)
  obtain ⟨c, d, k, fs, rfl⟩ | ⟨l, c, d, k, fs, rfl⟩ := ht
  · exact ⟨hs.paramsLegal, hbuf, rfl, fun _ => by simp [writeAll, initRegWrites, writeReg],
      fun _ => hcsLvl, fun _ => hrstLvl⟩
  · exact ⟨hs.paramsLegal, hbuf, rfl, by simp, by simp, by simp⟩

/-- An emitting operation on a block writes no buffer byte, drives no absent line, and goes to no
Unreset. -/
theorem emitting_keeps_inv {i : Instr} {s t : State} (hi : emitting i = true) (hs : s.Inv)
    (h : exec i s = .next t) : t.Inv := by
  obtain ⟨-, hc⟩ := emitting_next_ready hi h
  obtain ⟨hpar, -, hcs, hrst, hbuf, -, hseq, -⟩ := emitting_frame hi h
  refine ⟨hpar ▸ hs.paramsLegal, hbuf ▸ hs.bufWf, hseq,
    fun _ => emitting_life_ne_unreset hi h (hs.lifeKnown hc), fun _ hno => ?_, fun _ hno => ?_⟩
  · rw [hcs] at hno
    exact (emitting_keeps_level .cs hi h fun es hp => plan_cs hi hp hno).trans (hs.noCsLine hc hno)
  · rw [hrst] at hno
    exact (emitting_keeps_level .rst hi h fun es hp => plan_rst hi hp (.inr hno)).trans
      (hs.noRstLine hc hno)

/-- A Pixel Buffer operation writes the buffer and the response only, and keeps the buffer canonical. -/
theorem pixel_keeps_inv {i : Instr} {s t : State} (hi : pixelOp i) (hs : s.Inv)
    (h : exec i s = .next t) : t.Inv := by
  have hwf := pixel_keeps_wf hi h hs.bufWf
  obtain ⟨-, rfl | ⟨d, m, rfl⟩⟩ := pixel_cases hi h
  · exact hs.raiseError _
  · exact ⟨hs.paramsLegal, hwf, rfl, hs.lifeKnown, hs.noCsLine, hs.noRstLine⟩

/-- Every host operation and reserved word keeps the invariant. -/
theorem exec_keeps_inv {i : Instr} {s t : State} (hw : ∀ dc bs, wireBytes s.params i ≠ some (dc, bs))
    (hs : s.Inv) (h : exec i s = .next t) : t.Inv := by
  rcases instr_kinds i s.params with ⟨_, _, _, _, _, _, rfl⟩ | he | hp | hr | ⟨dc, bs, hb⟩
  · exact construct_keeps_inv hs h
  · exact emitting_keeps_inv he hs h
  · exact pixel_keeps_inv hp hs h
  · rw [reserved_next hr h]
    exact hs.raiseError _
  · exact absurd hb (hw dc bs)

-- Errors of checks

/-- A host operation or reserved word that ends with a check's error has done nothing but raise it. -/
theorem checkError_next {i : Instr} {s t : State} (h : exec i s = .next t)
    (hst : t.status = .configError ∨ t.status = .lifecycleError ∨ t.status = .illegal)
    (hw : ∀ dc bs, wireBytes s.params i ≠ some (dc, bs)) : t = raiseError t.status s := by
  rcases instr_kinds i s.params with ⟨_, _, _, _, _, _, rfl⟩ | he | hp | hr | ⟨dc, bs, hb⟩
  · obtain ⟨-, rfl | ⟨r, es, -, ⟨c, d, k, fs, rfl⟩ | ⟨l, c, d, k, fs, rfl⟩⟩⟩ := construct_cases h
    · rfl
    · simp at hst
    · simp at hst
  · obtain ⟨e, -, rfl, -⟩ | ⟨es, n, c, d, r, fs, -, ⟨-, rfl⟩ | rfl⟩ := emitting_cases he h
    · rfl
    · simp at hst
    · simp at hst
  · obtain ⟨-, rfl | ⟨d, m, rfl⟩⟩ := pixel_cases hp h
    · rfl
    · simp at hst
  · rw [reserved_next hr h]
    rfl
  · exact absurd hb (hw dc bs)

-- A failed emission from Idle, and the lifecycle check

/-- A failure that ends no construct writes the response only, where the sequencer is Idle already. -/
theorem transportFailure_idle {s : State} (hs : s.seq = .idle) :
    transportFailure false s = { s with status := .transportError, rdata := 0x00 } := by
  simp only [transportFailure, raiseError_idle _ hs, Bool.not_false, Bool.and_true]

theorem runtime_eq_false_iff {l : Life} : runtime l = false ↔ l = .unreset ∨ l = .resetting := by
  cases l <;> simp [runtime]

-- The obligations

/-- Settles O55: a step from Idle waits, answers ILLEGAL, or runs a host operation or a reserved word,
each of which keeps the invariant. -/
theorem stepKeepsInvariant : Obligations.StepKeepsInvariant := by
  intro s t hs h
  obtain rfl | ⟨w, rest, -, ⟨-, rfl⟩ | ⟨i, hd, hx⟩⟩ := step_idle_cases hs.idle h
  · exact hs
  · exact (hs.popRequest rest).raiseError _
  · refine exec_keeps_inv (fun dc bs hw => ?_) (hs.popRequest rest) hx
    cases (request_not_wire hd).symm.trans hw

/-- Settles O44: the error entry, from Idle, writes the response registers only. -/
theorem checkErrorsChangeNothing : Obligations.CheckErrorsChangeNothing := by
  intro i s t hs h hst hw
  exact (checkError_next h hst hw).trans (raiseError_idle _ hs)

/-- Settles O45: only the emitting operations have an event that can fail, and each is the run of its
events before any register write. -/
theorem transportErrorIsPrecise : Obligations.TransportErrorIsPrecise := by
  intro i s es hr hp hne
  rcases instr_kinds i s.params with ⟨_, _, _, _, _, _, hi⟩ | he | hx | hx | ⟨dc, bs, hw⟩
  · exact absurd hi (hne _ _ _ _ _ _)
  · exact emitting_stopsAtFailure hr he hp
  · intro pre e post f rest hes
    simp [(exec_pixel hr hx hp).1] at hes
  · rcases hx with ⟨_, rfl⟩ | ⟨_, rfl⟩ <;> cases hp
  · cases (planned_wire s hw).symm.trans hp

/-- Settles O46: the frames stop at the failing event, and what the sequencer was doing says whether a
block is left. -/
theorem failedCommandEndsOperation : Obligations.FailedCommandEndsOperation := by
  intro i dc bs s pre e post f rest hc hw hes hcan hf ha
  have hblock := failedAt_constructed pre e f rest s
  rw [exec_wire hw, hes, onWire, if_pos hc, runPart, performAll_failing pre e post f rest s hcan hf ha]
  refine ⟨fun acts building hs => ?_, fun hs => ?_⟩
  · simp only [hs, transportFailure, raiseError, respond, hblock]
  · simp only [hs, transportFailure_idle ((failedAt_seq pre e f rest s).trans hs)]

/-- Settles O12: `step` in the case of an Idle state with no request. -/
theorem nothingHappensWithoutRequest : Obligations.NothingHappensWithoutRequest := by
  intro s hs hreq
  simp only [step, hs, hreq]

/-- Settles O24: the rotation is looked at before `LIFE`, and by construct before anything is
written. -/
theorem badRotationIsConfigError : Obligations.BadRotationIsConfigError := by
  intro rot s h0 h180 hs
  have hrot : legalRotation rot = none := legalRotation_eq_none_iff.2 ⟨h0, h180⟩
  refine ⟨fun hcs hrst inv con rat => ?_,
    fun hc inv con rat => (initializeReplaysSequence rot inv con rat s ⟨hs, hc⟩).2 hrot,
    fun hc => (setRotationSendsDirections rot s ⟨hs, hc⟩).2 hrot⟩
  simp only [exec, execConstruct, hrot, onPort_idle _ _ hs, raiseError_idle _ hs]

/-- Settles O25: the lifecycle clause of each operation's own statement. -/
theorem lifecycleGate : Obligations.LifecycleGate := by
  intro s hr
  have hrotation : ∀ {rot r}, legalRotation rot = some r → runtime s.life = false →
      exec (.setRotation rot) s = .next { s with status := .lifecycleError, rdata := 0x00 } :=
    fun hrot hl => ((setRotationSendsDirections _ s hr).1 _ _ hrot rfl).2.2 hl
  refine ⟨fun hl i hi => ?_, fun hl v b => ?_, fun hl inv con rat rot hmem => ?_⟩
  · have hl := runtime_eq_false_iff.2 hl
    simp only [List.mem_cons, List.not_mem_nil, or_false] at hi
    rcases hi with rfl | rfl | rfl
    · exact (presentSendsWholeBuffer s _ hr rfl).2.2 hl
    · exact hrotation (r := .deg0) rfl hl
    · exact hrotation (r := .deg180) rfl hl
  · have hl := runtime_eq_false_iff.2 hl
    exact ⟨(setContrastMasksSendsAndStores v s _ hr rfl).2.2 hl,
      (setInvertedSendsPolarity b s _ hr rfl).2.2 hl, (setSleepingSwitchesDisplay b s _ hr rfl).2.2 hl⟩
  · simp only [List.mem_cons, List.not_mem_nil, or_false] at hmem
    obtain ⟨r, hrot⟩ : ∃ r, legalRotation rot = some r := by
      rcases hmem with rfl | rfl
      · exact ⟨.deg0, rfl⟩
      · exact ⟨.deg180, rfl⟩
    exact ((initializeReplaysSequence rot inv con rat s hr).1 r _ hrot rfl).2.2 hl

end Sys2Proof.Machine

/-!
SUPPORT. The proofs of the family of spec/70_reset_and_hazards.md, after what they need: the lengths of
the lists that construct, reset and initialize emit, and the parts of legal parameters.
-/

namespace Sys2Proof.Machine

-- The lengths of the operations' lists (R203)

/-- The 13 steps are 15 bytes where the booster's step is two of them (R122). -/
theorem length_initSeq {p : Params} (hb : p.boosterSeq.length = 2) (r : Rotation) (inv : Bool)
    (ev : BitVec 6) (rr : BitVec 3) : (initSeq p r inv ev rr).length = 15 := by
  cases r <;> simp [initSeq, hb, encBooster, encBias, encSegDir, encComDir, encPolarity, encRatio,
    encContrast, encPower, encStartLine, encAllPixels, encDisplay]

theorem length_initEvents {p : Params} (hb : p.boosterSeq.length = 2) (c : Bool) (r : Rotation)
    (inv : Bool) (con rat : Nat) :
    (initEvents p c r inv con rat).length = 15 * if c then 4 else 2 := by
  rw [initEvents, length_cmdFrames, length_initSeq hb]

theorem length_resetEvents (p : Params) (c r : Bool) :
    (resetEvents p c r).length = (if r then 4 else 0) + if c then 4 else 2 := by
  rw [resetEvents_eq, List.length_append, length_frame]
  cases r <;> rfl

theorem length_idleLevels (c r : Bool) :
    (idleLevels c r).length = 1 + (if c then 1 else 0) + if r then 1 else 0 := by
  cases c <;> cases r <;> rfl

/-- The software reset's byte and the initialization sequence's 15 are 16 frames (R123). -/
theorem length_constructEvents {p : Params} (hb : p.boosterSeq.length = 2) (hcs hrst : Bool)
    (r : Rotation) (inv : Bool) (con rat : Nat) :
    (constructEvents p hcs hrst r inv con rat).length =
      1 + (if hcs then 1 else 0) + (if hrst then 5 else 0) + 16 * (if hcs then 4 else 2) := by
  rw [constructEvents, List.length_append, List.length_append, length_idleLevels,
    length_resetEvents, length_initEvents hb]
  cases hcs <;> cases hrst <;> rfl

/-- Sleeping and waking send two commands of one byte (R126). -/
theorem length_sleepBytes (p : Params) (b : Bool) : (sleepBytes p b).length = 2 := by
  cases b <;> rfl

-- The parameters (R8)

theorem legal_resetTimes {p : Params} (h : Params.legal p = true) :
    5 ≤ p.resetLowUs ∧ 5 ≤ p.resetHighUs := by
  simp only [Params.legal, Bool.and_eq_true, decide_eq_true_eq] at h
  obtain ⟨⟨⟨⟨-, hlow⟩, hhigh⟩, -⟩, -⟩ := h
  exact ⟨hlow, hhigh⟩

-- The obligations

/-- Settles O48: each plan is frames of a known number of bytes, with the reset pulse and the idle levels
where there is a line for them. -/
theorem eventCounts : Obligations.EventCounts := by
  intro i s es hp hb
  cases i <;> simp only [planned, Option.ite_none_right_eq_some, Option.map_eq_some_iff,
    Option.some.injEq, reduceCtorEq] at hp
  case construct => obtain ⟨r, -, rfl⟩ := hp; exact length_constructEvents hb ..
  case reset => subst hp; exact length_resetEvents ..
  case initialise => obtain ⟨-, r, -, rfl⟩ := hp; exact length_initEvents hb ..
  case present => obtain ⟨-, rfl⟩ := hp; rw [length_presentEvents]; cases s.hasCs <;> rfl
  case setContrast => obtain ⟨-, rfl⟩ := hp; exact length_cmdFrames ..
  case setInverted => obtain ⟨-, rfl⟩ := hp; exact (length_cmdFrames ..).trans (one_mul _)
  case setRotation => obtain ⟨-, r, -, rfl⟩ := hp; rw [length_cmdFrames, length_directionBytes]
  case setSleeping => obtain ⟨-, rfl⟩ := hp; rw [length_cmdFrames, length_sleepBytes]
  case setPixel => subst hp; rfl
  case getPixel => obtain ⟨-, rfl⟩ := hp; rfl
  case fill => subst hp; rfl
  case bufWrite => obtain ⟨-, rfl⟩ := hp; rfl
  case bufRead => obtain ⟨-, rfl⟩ := hp; rfl

/-- Settles O49: a reset that ends OK has emitted its plan, the pulse and then the software reset's
frame. -/
theorem resetHoldsEachPhase : Obligations.ResetHoldsEachPhase := by
  intro s t hlegal h hok
  obtain ⟨hlow, hhigh⟩ := legal_resetTimes hlegal
  obtain ⟨es, hp, htr⟩ := emitting_ok_trace (i := .reset) rfl h hok
  cases hp
  rw [resetEvents_eq, ← List.append_assoc] at htr
  refine ⟨hlow, hhigh, fun hr => ?_, fun hr => ?_⟩
  · rwa [hr] at htr
  · rwa [hr, resetPulse, if_neg Bool.false_ne_true, List.append_nil] at htr

/-- Settles O18: construct's statement at its default operands, where no failure is to come; the events
of R191 are construct's, so their number is its count with both optional lines. -/
theorem defaultConstructEmitsGoldenSequence : Obligations.DefaultConstructEmitsGoldenSequence := by
  have hgolden : goldenConstruct = constructEvents defaultParams true true .deg0 false 0x1F 3 := by
    decide
  refine ⟨?_, ?_⟩
  · rw [hgolden]
    exact (constructMakesBlock true true 0 false 0x1F 3 .deg0 State.powerOn _ rfl rfl rfl).1 rfl
  · rw [hgolden, length_constructEvents rfl]
    rfl

end Sys2Proof.Machine

/-!
SUPPORT. The proof of the family 'other': the test vectors' codes are the codes of well-formed
instructions, so the round trip of spec/30_encoding.md decodes them.
-/

namespace Sys2Proof.Machine

/-- The code of a well-formed instruction decodes to it. -/
theorem decode_of_encode_eq {i : Instr} {c : Code} (hw : i.wellFormed = true) (hc : encode i = c) :
    decode c = .ok i :=
  hc ▸ decodeInvertsEncode i hw

theorem decodeRequest_of_encode_eq {i : Instr} {w : Word} (hw : i.wellFormed = true)
    (hc : encode i = .request w) : decodeRequest w = .ok i :=
  decode_of_encode_eq hw hc

/-- Settles O3: each word, and each run of bytes, is by computation the code of its instruction, whose
operands fit their fields. -/
theorem specWordsDecode : Obligations.SpecWordsDecode := by
  refine ⟨?construct, ?initialise, ?setContrast, ?setRotation, ?setPixel, ?bufWrite,
    ?setev, ?collsb, ?powerctrl, ?comdir, ?data⟩
  case construct | initialise | setContrast | setRotation | setPixel | bufWrite =>
    exact decodeRequest_of_encode_eq rfl rfl
  case setev | collsb | powerctrl | comdir | data => exact decode_of_encode_eq rfl rfl

end Sys2Proof.Machine
